-- ==== Sys2Proof/Word.lean ====
section
/-! DEFINITION. The bit vectors of the block (spec/00_scope.md R6, R8): every value is a plain bit vector, never a real number. -/

namespace Sys2Proof

/-- A bfloat16 pattern: sign `h[15]`, exponent `h[14:7]`, mantissa `h[6:0]` (spec/30_encoding.md R32). -/
abbrev BF16 := BitVec 16

/-- A float32 pattern: sign `x[31]`, exponent `x[30:23]`, mantissa `x[22:0]` (spec/30_encoding.md R33). -/
abbrev F32 := BitVec 32

/-- The operation select `op[3:0]` (spec/10_state.md R16). -/
abbrev OpCode := BitVec 4

/-- An index of the limits ROM (spec/20_memory.md R20). -/
abbrev RomIndex := BitVec 3

/-- A request word `REQ36 = op ++ a` (spec/30_encoding.md R36). -/
abbrev Request := BitVec 36

end Sys2Proof
end

