-- ==== Sys2Proof/Syntax.lean ====
section
/-! DEFINITION. The nine operations of spec/30_encoding.md R40, one constructor per row of spec/opcode_table.json. -/

namespace Sys2Proof

/-- An operation with its operand. `x` is an F32, `h` a BF16, `i` a ROM index; `u` is the bits of `a` the operation ignores
(spec/30_encoding.md R38), carried so that an instruction is exactly one request word. DESIGN CHOICE, log entry 6. -/
inductive Instr where
  | narrow (x : F32)
  | widen (u : BitVec 16) (h : BF16)
  | isZero (u : BitVec 16) (h : BF16)
  | isNeg (u : BitVec 16) (h : BF16)
  | isInf (u : BitVec 16) (h : BF16)
  | isNan (u : BitVec 16) (h : BF16)
  | exponent (u : BitVec 16) (h : BF16)
  | mantissa (u : BitVec 16) (h : BF16)
  | limit (u : BitVec 29) (i : RomIndex)
deriving DecidableEq, Repr

end Sys2Proof
end

