-- ==== Sys2Proof/WellFormed.lean ====
section
/-! DEFINITION. Which operands an operation may have: every one. spec/30_encoding.md R41: "Within a defined operation there
are no reserved operand values: every value of the bits read is legal and every value of the bits ignored is ignored". The
operands' widths are in their types, so nothing is left to check, and no term of `Instr` is ill-formed. What a script must
satisfy is checked in Sys2Proof/Machine/Script.lean. -/

namespace Sys2Proof

/-- The well-formedness of an instruction (spec/30_encoding.md R41): no constructor has a condition on its operands. -/
def Instr.wellFormed : Instr → Bool
  | .narrow _ => true
  | .widen _ _ => true
  | .isZero _ _ => true
  | .isNeg _ _ => true
  | .isInf _ _ => true
  | .isNan _ _ => true
  | .exponent _ _ => true
  | .mantissa _ _ => true
  | .limit _ _ => true

end Sys2Proof
end

