-- ==== Sys2Proof/Decode.lean ====
section
/-! DEFINITION. Request words (spec/30_encoding.md R36 to R42): the decoder, total on the 2^36 words, and the encoder. -/

namespace Sys2Proof

/-- Why a request word spells no operation (spec/30_encoding.md R41). -/
inductive DecodeError where
  | reservedOp (op : OpCode)
deriving DecidableEq, Repr

/-- `req = {op, a}` (spec/30_encoding.md R36). -/
def packRequest (op : OpCode) (a : BitVec 32) : Request := op ++ a

/-- `op = req[35:32]` (spec/30_encoding.md R36). -/
def opOf (w : Request) : OpCode := w.extractLsb' 32 4

/-- `a = req[31:0]` (spec/30_encoding.md R36). -/
def operandOf (w : Request) : BitVec 32 := w.extractLsb' 0 32

/-- `a[15:0]`, where a BF16 operand sits (spec/30_encoding.md R38). -/
def bf16Operand (a : BitVec 32) : BF16 := a.extractLsb' 0 16

/-- `a[31:16]`, ignored by every operation on a BF16 (spec/30_encoding.md R38). -/
def bf16Ignored (a : BitVec 32) : BitVec 16 := a.extractLsb' 16 16

/-- `a[2:0]`, where LIMIT's index sits (spec/30_encoding.md R38). -/
def indexOperand (a : BitVec 32) : RomIndex := a.extractLsb' 0 3

/-- `a[31:3]`, ignored by LIMIT (spec/30_encoding.md R38). -/
def indexIgnored (a : BitVec 32) : BitVec 29 := a.extractLsb' 3 29

/-- The operation map of spec/30_encoding.md R40: `op` alone selects, and codes `0x9` to `0xF` are reserved (R41). -/
def decode (w : Request) : Except DecodeError Instr :=
  let a := operandOf w
  match opOf w with
  | 0x0#4 => .ok (.narrow a)
  | 0x1#4 => .ok (.widen (bf16Ignored a) (bf16Operand a))
  | 0x2#4 => .ok (.isZero (bf16Ignored a) (bf16Operand a))
  | 0x3#4 => .ok (.isNeg (bf16Ignored a) (bf16Operand a))
  | 0x4#4 => .ok (.isInf (bf16Ignored a) (bf16Operand a))
  | 0x5#4 => .ok (.isNan (bf16Ignored a) (bf16Operand a))
  | 0x6#4 => .ok (.exponent (bf16Ignored a) (bf16Operand a))
  | 0x7#4 => .ok (.mantissa (bf16Ignored a) (bf16Operand a))
  | 0x8#4 => .ok (.limit (indexIgnored a) (indexOperand a))
  | op => .error (.reservedOp op)

/-- The request word of an instruction, from the same table (spec/30_encoding.md R40 and the "Encoding" line of each
operation rule). -/
def encode : Instr → Request
  | .narrow x => packRequest 0x0#4 x
  | .widen u h => packRequest 0x1#4 (u ++ h)
  | .isZero u h => packRequest 0x2#4 (u ++ h)
  | .isNeg u h => packRequest 0x3#4 (u ++ h)
  | .isInf u h => packRequest 0x4#4 (u ++ h)
  | .isNan u h => packRequest 0x5#4 (u ++ h)
  | .exponent u h => packRequest 0x6#4 (u ++ h)
  | .mantissa u h => packRequest 0x7#4 (u ++ h)
  | .limit u i => packRequest 0x8#4 (u ++ i)

/-- The request word whose low `nbits` bits are those of `w`, every other bit 0. A request has 36 bits (spec/30_encoding.md
R36, R42): a bit of `w` above them stands for no wire and is dropped. Log entry 5. -/
def tableWord (nbits w : Nat) : Request := BitVec.ofNat 36 (w % 2 ^ nbits)

/-- What the decoder reads from a word numbered as spec/opcode_table.json numbers it. -/
def decodeTableWord (nbits w : Nat) : Option Instr :=
  match decode (tableWord nbits w) with
  | .ok i => some i
  | .error _ => none

end Sys2Proof
end

