-- ==== Sys2Proof/Machine/Operands.lean ====
section
/-! DEFINITION. The fields of the two formats (spec/30_encoding.md R32, R33) and the placement of a result in `y` (R39).
Where an operand sits in `a` (R38) is Sys2Proof/Decode.lean. -/

namespace Sys2Proof.Machine

/-- BF16 `sign = h[15]` (spec/30_encoding.md R32). -/
def signField (h : BF16) : Bool := h.getLsbD 15

/-- BF16 `exp = h[14:7]` (spec/30_encoding.md R32). -/
def expField (h : BF16) : BitVec 8 := h.extractLsb' 7 8

/-- BF16 `man = h[6:0]` (spec/30_encoding.md R32). -/
def manField (h : BF16) : BitVec 7 := h.extractLsb' 0 7

/-- F32 `sign = x[31]` (spec/30_encoding.md R33). No unit of the block decodes it; statements do. -/
def f32Sign (x : F32) : Bool := x.getLsbD 31

/-- F32 `exp = x[30:23]` (spec/30_encoding.md R33). No unit of the block decodes it; statements do. -/
def f32Exp (x : F32) : BitVec 8 := x.extractLsb' 23 8

/-- F32 `man = x[22:0]` (spec/30_encoding.md R33). No unit of the block decodes it; statements do. -/
def f32Man (x : F32) : BitVec 23 := x.extractLsb' 0 23

/-- `zext_32`: a narrow result is right-aligned with zeros above (spec/30_encoding.md R39). -/
def zext32 {n : Nat} (v : BitVec n) : BitVec 32 := v.setWidth 32

/-- A 1-bit result in `y[0]` (spec/30_encoding.md R39). -/
def flagResult (b : Bool) : BitVec 32 := zext32 (BitVec.ofBool b)

end Sys2Proof.Machine
end

