-- ==== Sys2Proof/Machine/State.lean ====
section
/-! DEFINITION. What the model's state holds. The block itself holds nothing (spec/10_state.md R10): State is the values on
its four ports (R16) and the mark of a refused request that spec/60_exceptions.md R78 asks a model to keep. -/

namespace Sys2Proof.Machine

/-- The ports of the block at one moment, and the model's mark. DESIGN CHOICE, log entries 1 and 4. -/
structure State where
  /-- Input port `op[3:0]` (spec/10_state.md R16). -/
  op : OpCode
  /-- Input port `a[31:0]` (spec/10_state.md R16). -/
  a : BitVec 32
  /-- Output port `y[31:0]` (spec/10_state.md R16). -/
  y : BitVec 32
  /-- Output port `ill` (spec/10_state.md R16). -/
  ill : Bool
  /-- The model's own mark: some request so far had a reserved `op` (spec/60_exceptions.md R78). -/
  refused : Bool
deriving DecidableEq, Repr

/-- There is no fault: "no fault, no stuck state, no hang" (spec/60_exceptions.md R90). No constructor, so nobody raises one. -/
inductive Fault where
deriving DecidableEq, Repr

/-- Why a step has no meaning. -/
inductive Refusal where
  /-- Raised by `exec` alone, for an instruction the model gives no meaning; safe. No arm raises it: all nine have theirs. -/
  | notModelled (mnemonic : String)
deriving DecidableEq, Repr

/-- The model's first state. The spec gives no reset and no reset value (spec/10_state.md R18, spec/70_reset_and_hazards.md
R91, R92). DESIGN CHOICE: every port at zero (log entry 2); the mark clear (log entry 4). -/
def State.reset : State :=
  { op := 0, a := 0, y := 0, ill := false, refused := false }

end Sys2Proof.Machine
end

