-- ==== Sys2Proof/Machine/Ops.lean ====
section
/-! DEFINITION. The named operations on the ports. There is no memory to write and no register to name (spec/20_memory.md
R20, spec/10_state.md R11), and no exception to take or to return from (spec/60_exceptions.md R77, R82): the one event the
ports show is a reserved code, `answerReserved`. -/

namespace Sys2Proof.Machine

/-- The request on the input ports, as one word (spec/30_encoding.md R36). -/
def requestWord (s : State) : Request := packRequest s.op s.a

/-- The host puts a request on the input ports (spec/70_reset_and_hazards.md R98). The outputs follow at the next step. -/
def present (w : Request) (s : State) : State :=
  { s with op := opOf w, a := operandOf w }

/-- The response of a defined operation: its result on `y`, and `ill = 0` (spec/30_encoding.md R39). -/
def answer (y : BitVec 32) (s : State) : Host.Outcome State Fault Refusal :=
  .next { s with y := y, ill := false }

/-- The response to a reserved code, `y = 0` and `ill = 1` (spec/30_encoding.md R41), with the request marked as refused for
the run (spec/60_exceptions.md R78). It is a next state because "Each line is one step, which always completes and always
completes with the response" of R45 (spec/70_reset_and_hazards.md R97). DESIGN CHOICE, log entry 3. -/
def answerReserved (s : State) : Host.Outcome State Fault Refusal :=
  .next { s with y := 0, ill := true, refused := true }

end Sys2Proof.Machine
end

