-- ==== Sys2Proof/Machine/Classify.lean ====
section
/-! DEFINITION. The Special-Value Classifier: IS_ZERO, IS_NEG, IS_INF, IS_NAN, EXPONENT, MANTISSA (spec/41_classify.md R61 to
R66), and the five classes of patterns (spec/30_encoding.md R35). -/

namespace Sys2Proof.Machine

/-- "true iff all bits except the sign bit are zero" (spec/41_classify.md R61). -/
def isZero (h : BF16) : Bool := h.extractLsb' 0 15 == 0#15

/-- "true iff the sign bit is set (including negative zero)" (spec/41_classify.md R62). -/
def isNeg (h : BF16) : Bool := signField h

/-- "true iff exponent field is all ones and mantissa field is zero" (spec/41_classify.md R63). -/
def isInf (h : BF16) : Bool := expField h == 0xFF#8 && manField h == 0#7

/-- "true iff exponent field is all ones and mantissa field is nonzero" (spec/41_classify.md R64). -/
def isNan (h : BF16) : Bool := expField h == 0xFF#8 && manField h != 0#7

/-- `BIAS` (spec/00_scope.md R5). -/
def bias : BitVec 16 := 127#16

/-- `EXP_SENTINEL` (spec/00_scope.md R5). -/
def expSentinel : BitVec 16 := 0x7FFF#16

/-- The unbiased exponent as a 16-bit two's complement number, with 0 for a zero and the sentinel for infinity and NaN; a
subnormal gives -127 (spec/41_classify.md R65). -/
def exponent (h : BF16) : BitVec 16 :=
  if h.extractLsb' 0 15 = 0#15 then 0x0000#16
  else if expField h = 0xFF#8 then expSentinel
  else (expField h).setWidth 16 - bias

/-- The raw 7-bit mantissa field (spec/41_classify.md R66). -/
def mantissa (h : BF16) : BitVec 7 := manField h

/-- IS_ZERO (spec/41_classify.md R61). -/
def execIsZero (_u : BitVec 16) (h : BF16) (s : State) : Host.Outcome State Fault Refusal :=
  answer (flagResult (isZero h)) s

/-- IS_NEG (spec/41_classify.md R62). -/
def execIsNeg (_u : BitVec 16) (h : BF16) (s : State) : Host.Outcome State Fault Refusal :=
  answer (flagResult (isNeg h)) s

/-- IS_INF (spec/41_classify.md R63). -/
def execIsInf (_u : BitVec 16) (h : BF16) (s : State) : Host.Outcome State Fault Refusal :=
  answer (flagResult (isInf h)) s

/-- IS_NAN (spec/41_classify.md R64). -/
def execIsNan (_u : BitVec 16) (h : BF16) (s : State) : Host.Outcome State Fault Refusal :=
  answer (flagResult (isNan h)) s

/-- EXPONENT (spec/41_classify.md R65). -/
def execExponent (_u : BitVec 16) (h : BF16) (s : State) : Host.Outcome State Fault Refusal :=
  answer (zext32 (exponent h)) s

/-- MANTISSA (spec/41_classify.md R66). -/
def execMantissa (_u : BitVec 16) (h : BF16) (s : State) : Host.Outcome State Fault Refusal :=
  answer (zext32 (mantissa h)) s

/-- The five classes of patterns (spec/30_encoding.md R35). -/
inductive FloatClass where
  | zero
  | subnormal
  | normal
  | infinity
  | nan
deriving DecidableEq, Repr

/-- A class from an exponent field and "the mantissa field is zero" (spec/30_encoding.md R35). -/
def classOfFields (e : BitVec 8) (manZero : Bool) : FloatClass :=
  if e = 0x00#8 then (if manZero then .zero else .subnormal)
  else if e = 0xFF#8 then (if manZero then .infinity else .nan)
  else .normal

/-- The class of a BF16 (spec/30_encoding.md R35). -/
def classOf (h : BF16) : FloatClass := classOfFields (expField h) (manField h == 0#7)

/-- The class of an F32 "by the F32's own exponent and mantissa fields" (spec/40_convert.md R60). No unit of the block computes
it; statements do. -/
def f32ClassOf (x : F32) : FloatClass := classOfFields (f32Exp x) (f32Man x == 0#23)

end Sys2Proof.Machine
end

