-- ==== Sys2Proof/Machine/Convert.lean ====
section
/-! DEFINITION. The Conversion Engine: NARROW and WIDEN (spec/40_convert.md R46, R56). -/

namespace Sys2Proof.Machine

/-- `ROUND_CONST` (spec/00_scope.md R5). -/
def roundConst : BitVec 32 := 0x7FFF#32

/-- F32 to BF16: add `0x7FFF` modulo 2^32, keep bits 31 to 16 (spec/40_convert.md R46). No NaN guard, ties toward zero:
spec/90_conflicts.md C1, C2 (log entry 9). -/
def narrow (x : F32) : BF16 := (x + roundConst).extractLsb' 16 16

/-- BF16 to F32: `{h, 16'h0000}` (spec/40_convert.md R56). -/
def widen (h : BF16) : F32 := h ++ 0x0000#16

/-- NARROW (spec/40_convert.md R46). -/
def execNarrow (x : F32) (s : State) : Host.Outcome State Fault Refusal :=
  answer (zext32 (narrow x)) s

/-- WIDEN (spec/40_convert.md R56). -/
def execWiden (_u : BitVec 16) (h : BF16) (s : State) : Host.Outcome State Fault Refusal :=
  answer (widen h) s

end Sys2Proof.Machine
end

