-- ==== Sys2Proof/Machine/Limits.lean ====
section
/-! DEFINITION. The limits ROM and LIMIT (spec/42_limits.md R71, R72). The ROM is the block's whole address space
(spec/20_memory.md R20): a constant function, as spec/10_state.md R15 asks. -/

namespace Sys2Proof.Machine

/-- The eight constants (spec/42_limits.md R71), stored and not computed (R74). -/
def rom : Fin 8 → BF16
  | 0 => 0x0080#16
  | 1 => 0xFF7F#16
  | 2 => 0x7F7F#16
  | 3 => 0x3C00#16
  | 4 => 0x0001#16
  | 5 => 0x7F80#16
  | 6 => 0x7F81#16
  | 7 => 0x3F00#16

/-- `limit(i) = ROM[i]` (spec/42_limits.md R72). -/
def limit (i : RomIndex) : BF16 := rom i.toFin

/-- LIMIT (spec/42_limits.md R72). -/
def execLimit (_u : BitVec 29) (i : RomIndex) (s : State) : Host.Outcome State Fault Refusal :=
  answer (zext32 (limit i)) s

/-- The names of the constants (spec/20_memory.md R24). -/
inductive LimitName where
  | min
  | lowest
  | max
  | epsilon
  | denormMin
  | infinity
  | quietNan
  | roundError
deriving DecidableEq, Repr

/-- The index of a name (spec/20_memory.md R24). -/
def limitIndex : LimitName → RomIndex
  | .min => 0
  | .lowest => 1
  | .max => 2
  | .epsilon => 3
  | .denormMin => 4
  | .infinity => 5
  | .quietNan => 6
  | .roundError => 7

end Sys2Proof.Machine
end

