-- ==== Sys2Proof/Machine/Dispatch.lean ====
section
/-! DEFINITION. exec: one arm per operation (spec/30_encoding.md R45). -/

namespace Sys2Proof.Machine

/-- The meaning of each operation. -/
def exec (i : Instr) (s : State) : Host.Outcome State Fault Refusal :=
  match i with
  | .narrow x => Sys2Proof.Machine.execNarrow x s
  | .widen u h => Sys2Proof.Machine.execWiden u h s
  | .isZero u h => Sys2Proof.Machine.execIsZero u h s
  | .isNeg u h => Sys2Proof.Machine.execIsNeg u h s
  | .isInf u h => Sys2Proof.Machine.execIsInf u h s
  | .isNan u h => Sys2Proof.Machine.execIsNan u h s
  | .exponent u h => Sys2Proof.Machine.execExponent u h s
  | .mantissa u h => Sys2Proof.Machine.execMantissa u h s
  | .limit u k => Sys2Proof.Machine.execLimit u k s

end Sys2Proof.Machine
end

