-- ==== Sys2Proof/Machine/Step.lean ====
section
/-! DEFINITION. One step: the block evaluates the request on its input ports (spec/70_reset_and_hazards.md R97). -/

namespace Sys2Proof.Machine

/-- Evaluate the request on the ports: its operation's meaning, or the reserved response (spec/30_encoding.md R41, R45). The
inputs stay: the host holds them (spec/70_reset_and_hazards.md R95). -/
def step (s : State) : Host.Outcome State Fault Refusal :=
  match decode (requestWord s) with
  | .ok i => exec i s
  | .error (.reservedOp _) => answerReserved s

/-- The host presents the word: the block fetches nothing (spec/10_state.md R12), so the request is put on the input ports,
where the next step reads it. Log entry 5. -/
def State.withFetchWord (s : State) (nbits w : Nat) : State :=
  present (tableWord nbits w) s

end Sys2Proof.Machine
end

