-- ==== Sys2Proof/Machine/Flags.lean ====
section
/-! DEFINITION. The block has no flags (spec/10_state.md R13). Its one status output, `ill`, is a function of `op` alone. -/

namespace Sys2Proof.Machine

/-- `ill = 1` exactly when `op >= 0x9` (spec/60_exceptions.md R78, spec/30_encoding.md R41). -/
def illOf (op : OpCode) : Bool := decide (9 ≤ op.toNat)

end Sys2Proof.Machine
end

