-- ==== Sys2Proof/Machine/Response.lean ====
section
/-! DEFINITION. The response function of the whole block, `F(op, a)`, written down as spec/30_encoding.md R45 gives it, apart
from the decoder and from `exec`. A statement says that `step` computes it. -/

namespace Sys2Proof.Machine

/-- A response: the two output ports (spec/00_scope.md R8). -/
structure Response where
  y : BitVec 32
  ill : Bool
deriving DecidableEq, Repr

/-- `rsp = {ill, y}` (spec/30_encoding.md R37). -/
def packResponse (r : Response) : BitVec 33 := BitVec.ofBool r.ill ++ r.y

/-- `F(op, a)` (spec/30_encoding.md R45). -/
def respond (op : OpCode) (a : BitVec 32) : Response :=
  let h := bf16Operand a
  let i := indexOperand a
  if op = 0x0#4 then ⟨zext32 (narrow a), false⟩
  else if op = 0x1#4 then ⟨widen h, false⟩
  else if op = 0x2#4 then ⟨flagResult (isZero h), false⟩
  else if op = 0x3#4 then ⟨flagResult (isNeg h), false⟩
  else if op = 0x4#4 then ⟨flagResult (isInf h), false⟩
  else if op = 0x5#4 then ⟨flagResult (isNan h), false⟩
  else if op = 0x6#4 then ⟨zext32 (exponent h), false⟩
  else if op = 0x7#4 then ⟨zext32 (mantissa h), false⟩
  else if op = 0x8#4 then ⟨zext32 (limit i), false⟩
  else ⟨0x00000000#32, true⟩

/-- `F` on a request word (spec/30_encoding.md R36, R45). -/
def respondWord (w : Request) : Response := respond (opOf w) (operandOf w)

/-- The response on the output ports. -/
def responseOf (s : State) : Response := ⟨s.y, s.ill⟩

end Sys2Proof.Machine
end

