-- ==== Sys2Proof/Machine/Script.lean ====
section
/-! DEFINITION. The host's side: runs of requests (spec/70_reset_and_hazards.md R97) and scripts with their pseudo-operations
(spec/30_encoding.md R43, R44). None of it is hardware: the block's part of every line is `step`. -/

namespace Sys2Proof.Machine

/-- Present one request and evaluate it: one line of a run (spec/70_reset_and_hazards.md R97). -/
def ask (w : Request) (s : State) : Host.Outcome State Fault Refusal :=
  step (present w s)

/-- A run: the requests one after another, and the list of responses, which is "the result of a run"
(spec/70_reset_and_hazards.md R97). -/
def runRequests : List Request → State → Host.Outcome (State × List Response) Fault Refusal
  | [], s => .next (s, [])
  | w :: ws, s =>
    match ask w s with
    | .fault f => .fault f
    | .refused r => .refused r
    | .next s' =>
      match runRequests ws s' with
      | .fault f => .fault f
      | .refused r => .refused r
      | .next (t, rs) => .next (t, responseOf s' :: rs)

/-- The nine hexadecimal digits of a request, `op` first (spec/30_encoding.md R36, R43). -/
def requestDigits (w : Request) : List (BitVec 4) :=
  [w.extractLsb' 32 4, w.extractLsb' 28 4, w.extractLsb' 24 4, w.extractLsb' 20 4, w.extractLsb' 16 4,
    w.extractLsb' 12 4, w.extractLsb' 8 4, w.extractLsb' 4 4, w.extractLsb' 0 4]

/-- The mnemonics of a script: the nine of spec/30_encoding.md R40 and the pseudo-operations of R44. -/
inductive Mnemonic where
  | narrow
  | widen
  | isZero
  | isNeg
  | isInf
  | isNan
  | exponent
  | mantissa
  | limit
  | sign
  | isInfinite
  | isInfinity
  | roundtrip
deriving DecidableEq, Repr

/-- An operand of a script line (spec/30_encoding.md R43). -/
inductive Operand where
  /-- A hexadecimal literal, zero-extended to 32 bits. -/
  | literal (v : BitVec 32)
  /-- The name of a constant, for LIMIT only (spec/30_encoding.md R44). -/
  | limitName (n : LimitName)
  /-- A name bound by an earlier line: the operand is that line's `y`. -/
  | name (n : String)
deriving DecidableEq, Repr

/-- A line of a script (spec/30_encoding.md R43). -/
inductive Line where
  /-- `name <- MNEMONIC operand`, or `MNEMONIC operand`. -/
  | send (bind : Option String) (m : Mnemonic) (o : Operand)
  /-- `name <- RAW literal36`. -/
  | raw (bind : String) (w : Request)
  /-- `assert name == literal`, run by the host. -/
  | assertEq (n : String) (v : BitVec 32)
  /-- `if name == literal then`, run by the host. -/
  | ifEq (n : String) (v : BitVec 32)
  /-- `else`. -/
  | elseLine
  /-- `end`. -/
  | endLine
deriving DecidableEq, Repr

/-- A request line after expansion: the name it binds, its operation code and its operand. -/
structure CoreSend where
  bind : Option String
  op : OpCode
  operand : Operand
deriving DecidableEq, Repr

/-- The expansion of a request line (spec/30_encoding.md R44). ROUNDTRIP expands to `t <- NARROW x` and `WIDEN t`, the rule's
own name `t`, so that it rebinds a `t` of the script; a name before ROUNDTRIP is bound to the WIDEN. DESIGN CHOICE, log
entry 11. -/
def expandSend (b : Option String) (m : Mnemonic) (o : Operand) : List CoreSend :=
  match m with
  | .narrow => [⟨b, 0x0#4, o⟩]
  | .widen => [⟨b, 0x1#4, o⟩]
  | .isZero => [⟨b, 0x2#4, o⟩]
  | .isNeg => [⟨b, 0x3#4, o⟩]
  | .isInf => [⟨b, 0x4#4, o⟩]
  | .isNan => [⟨b, 0x5#4, o⟩]
  | .exponent => [⟨b, 0x6#4, o⟩]
  | .mantissa => [⟨b, 0x7#4, o⟩]
  | .limit => [⟨b, 0x8#4, o⟩]
  | .sign => [⟨b, 0x3#4, o⟩]
  | .isInfinite => [⟨b, 0x4#4, o⟩]
  | .isInfinity => [⟨b, 0x4#4, o⟩]
  | .roundtrip => [⟨some "t", 0x0#4, o⟩, ⟨b, 0x1#4, .name "t"⟩]

/-- What the host does inside an `if`: the branch it is in runs, does not run, or stands in one that does not run. -/
inductive Branch where
  | running
  | waiting
  | skipped
deriving DecidableEq, Repr

/-- The host's own variables beside the block's ports (spec/30_encoding.md R43: not hardware state). -/
structure HostState where
  block : State
  /-- Names and the `y` each is bound to, the latest first. -/
  names : List (String × BitVec 32)
  /-- The responses so far, the latest first. -/
  responses : List Response
  /-- Some `assert` line did not hold. The spec gives no effect of one: the run goes on. DESIGN CHOICE, log entry 11. -/
  assertFailed : Bool
  /-- The open `if` lines, the innermost first. -/
  nest : List Branch
deriving DecidableEq, Repr

/-- The host before the first line: no name is bound (spec/95_test_vectors.md, part 3). -/
def HostState.start (s : State) : HostState :=
  { block := s, names := [], responses := [], assertFailed := false, nest := [] }

/-- Why a script cannot be run on: it is not a script of spec/30_encoding.md R43. -/
inductive ScriptError where
  /-- An operand, `assert` or `if` names no earlier line that was run. -/
  | unboundName (n : String)
  /-- The name of a constant is the operand of an operation other than LIMIT. -/
  | limitNameElsewhere
  /-- An `else` or `end` closes no `if`. -/
  | unmatched
  /-- The block did not answer: it never happens, by spec/70_reset_and_hazards.md R97. -/
  | noAnswer
deriving DecidableEq, Repr

/-- The value of a name. -/
def lookupName (n : String) (names : List (String × BitVec 32)) : Except ScriptError (BitVec 32) :=
  match names.lookup n with
  | some v => .ok v
  | none => .error (.unboundName n)

/-- The `a` an operand stands for (spec/30_encoding.md R43). -/
def operandValue (op : OpCode) (o : Operand) (names : List (String × BitVec 32)) : Except ScriptError (BitVec 32) :=
  match o with
  | .literal v => .ok v
  | .limitName n => if op = 0x8#4 then .ok (zext32 (limitIndex n)) else .error .limitNameElsewhere
  | .name n => lookupName n names

/-- Bind a name to a value. -/
def bindName (b : Option String) (v : BitVec 32) (names : List (String × BitVec 32)) : List (String × BitVec 32) :=
  match b with
  | some n => (n, v) :: names
  | none => names

/-- Send one request word and keep its response. -/
def sendWord (b : Option String) (w : Request) (h : HostState) : Except ScriptError HostState :=
  match ask w h.block with
  | .next s => .ok { h with block := s, names := bindName b s.y h.names, responses := responseOf s :: h.responses }
  | .fault _ => .error .noAnswer
  | .refused _ => .error .noAnswer

/-- Send the request lines of an expansion, in order. -/
def sendAll : List CoreSend → HostState → Except ScriptError HostState
  | [], h => .ok h
  | c :: cs, h =>
    match operandValue c.op c.operand h.names with
    | .error e => .error e
    | .ok a =>
      match sendWord c.bind (packRequest c.op a) h with
      | .error e => .error e
      | .ok h' => sendAll cs h'

/-- Every open `if` is in the branch that runs. -/
def HostState.running (h : HostState) : Bool := h.nest.all (· == .running)

/-- One line of a script (spec/30_encoding.md R43). A line inside a branch that does not run sends nothing. `end` closes an `if`
whether or not its `else` has come, and an `if` may stand inside another; the rule prints only an `if` with an `else`. DESIGN
CHOICE, log entry 11. -/
def runLine (l : Line) (h : HostState) : Except ScriptError HostState :=
  match l with
  | .send b m o => if h.running then sendAll (expandSend b m o) h else .ok h
  | .raw b w => if h.running then sendWord (some b) w h else .ok h
  | .assertEq n v =>
    if h.running then
      match lookupName n h.names with
      | .ok x => .ok { h with assertFailed := h.assertFailed || x != v }
      | .error e => .error e
    else .ok h
  | .ifEq n v =>
    if h.running then
      match lookupName n h.names with
      | .ok x => .ok { h with nest := (if x = v then .running else .waiting) :: h.nest }
      | .error e => .error e
    else .ok { h with nest := .skipped :: h.nest }
  | .elseLine =>
    match h.nest with
    | .running :: bs => .ok { h with nest := .waiting :: bs }
    | .waiting :: bs => .ok { h with nest := .running :: bs }
    | .skipped :: bs => .ok { h with nest := .skipped :: bs }
    | [] => .error .unmatched
  | .endLine =>
    match h.nest with
    | _ :: bs => .ok { h with nest := bs }
    | [] => .error .unmatched

/-- A script, run top to bottom (spec/30_encoding.md R43). -/
def runScript : List Line → HostState → Except ScriptError HostState
  | [], h => .ok h
  | l :: ls, h =>
    match runLine l h with
    | .ok h' => runScript ls h'
    | .error e => .error e

/-- The mnemonic takes the name of a constant (spec/30_encoding.md R43, R44). -/
def takesLimitName (m : Mnemonic) : Bool := m == .limit

/-- The names a request line binds. -/
def boundBy (b : Option String) (m : Mnemonic) : List String :=
  b.toList ++ (if m = .roundtrip then ["t"] else [])

/-- The form of a script, read line by line: every name used is bound by an earlier line, the name of a constant stands only
with LIMIT, and `if`, `else` and `end` match, with at most one `else` each (spec/30_encoding.md R43). `bound` is the names of
the lines before, `elses` tells for each open `if` whether its `else` has been seen. That an `if` may be closed without an
`else`, and that an `if` may stand inside another, the rule does not say: DESIGN CHOICE, log entry 11. -/
def linesWellFormed : List Line → List String → List Bool → Bool
  | [], _, elses => elses.isEmpty
  | .send b m o :: ls, bound, elses =>
    (match o with
      | .literal _ => true
      | .limitName _ => takesLimitName m
      | .name n => bound.contains n) && linesWellFormed ls (boundBy b m ++ bound) elses
  | .raw b _ :: ls, bound, elses => linesWellFormed ls (b :: bound) elses
  | .assertEq n _ :: ls, bound, elses => bound.contains n && linesWellFormed ls bound elses
  | .ifEq n _ :: ls, bound, elses => bound.contains n && linesWellFormed ls bound (false :: elses)
  | .elseLine :: ls, bound, elses =>
    match elses with
    | false :: es => linesWellFormed ls bound (true :: es)
    | _ => false
  | .endLine :: ls, bound, elses =>
    match elses with
    | _ :: es => linesWellFormed ls bound es
    | [] => false

/-- A script has the form of spec/30_encoding.md R43. -/
def scriptWellFormed (ls : List Line) : Bool := linesWellFormed ls [] []

end Sys2Proof.Machine
end

