-- ==== Sys2Proof/Safety.lean ====
section
/-! DEFINITION. What claims about the block speak of: settled outputs, a run without a refusal, the model's invariant. -/

namespace Sys2Proof

open Machine

/-- The outputs are the response of the request on the inputs (spec/10_state.md R17). -/
abbrev Settled (s : State) : Prop := responseOf s = respond s.op s.a

/-- No request so far was refused: the premise spec/60_exceptions.md R78 asks of every claim about a run. -/
abbrev NoRefusal (s : State) : Prop := s.refused = false

/-- A response with `ill = 1` has been marked (spec/60_exceptions.md R78). -/
abbrev Marked (s : State) : Prop := s.ill = true → s.refused = true

/-- The model's invariant: the outputs are settled, and a response with `ill = 1` has been marked. -/
abbrev Inv (s : State) : Prop := Settled s ∧ Marked s

end Sys2Proof
end

