-- ==== Sys2Proof/Certificates/Slice0/Obligations.lean ====
section
/-! DEFINITION. The statements for the provers. In every one, `{ s with y := …, ill := … }` says the frame too: the input
ports, the mark and every output not named are as in `s`. Numbers are read unsigned (spec/00_scope.md R6): with `n` the value
of a BF16, `n / 2 ^ 15` is its sign, `n / 2 ^ 7 % 2 ^ 8` its exponent field, `n % 2 ^ 7` its mantissa (spec/30_encoding.md
R32); with `n` the value of an F32, `n / 2 ^ 16` is its upper half, `n % 2 ^ 16` its lower half, `n % 2 ^ 31` its bits 30 to 0
(R33). -/

open Sys2Proof Sys2Proof.Machine

/-! ## Request words -/

/-- Decoding the word of an instruction gives it back, ignored bits included (spec/30_encoding.md R36, R38, R40). -/
def Obligations.DecodeOfEncodeIsTheInstruction : Prop :=
  ∀ i : Instr, decode (encode i) = .ok i

/-- A word that decodes is the word of its instruction: no two words are one instruction (spec/30_encoding.md R36, R40). -/
def Obligations.EncodeOfDecodeIsTheWord : Prop :=
  ∀ (w : Request) (i : Instr), decode w = .ok i → encode i = w

/-- The decoder refuses exactly the words whose `op` is 0x9 to 0xF, naming the code, and accepts every other, whatever `a`
holds (spec/30_encoding.md R40, R41). -/
def Obligations.DecoderRefusesExactlyReservedCodes : Prop :=
  ∀ w : Request,
    (decode w = .error (.reservedOp (opOf w)) ↔ 9 ≤ w.toNat / 2 ^ 32) ∧
    ((∃ i, decode w = .ok i) ↔ w.toNat / 2 ^ 32 < 9)

/-- The requests the operation rules print as their examples (spec/40_convert.md R46, R56; spec/41_classify.md R61 to R66;
spec/42_limits.md R72). -/
def Obligations.PrintedRequestsDecode : Prop :=
  decode 0x040490FDB#36 = .ok (.narrow 0x40490FDB#32) ∧
  decode 0x100003F80#36 = .ok (.widen 0x0000#16 0x3F80#16) ∧
  decode 0x200008000#36 = .ok (.isZero 0x0000#16 0x8000#16) ∧
  decode 0x30000BF80#36 = .ok (.isNeg 0x0000#16 0xBF80#16) ∧
  decode 0x400007F80#36 = .ok (.isInf 0x0000#16 0x7F80#16) ∧
  decode 0x500007F81#36 = .ok (.isNan 0x0000#16 0x7F81#16) ∧
  decode 0x600003C00#36 = .ok (.exponent 0x0000#16 0x3C00#16) ∧
  decode 0x700004049#36 = .ok (.mantissa 0x0000#16 0x4049#16) ∧
  decode 0x800000002#36 = .ok (.limit 0#29 2#3)

/-- When the request on the ports decodes, a step runs exactly the decoded instruction on the same state
(spec/30_encoding.md R45; spec/70_reset_and_hazards.md R97). -/
def Obligations.StepRunsTheDecodedInstruction : Prop :=
  ∀ (s : State) (i : Instr), decode (packRequest s.op s.a) = .ok i → step s = exec i s

/-- A request word presented on the input ports (spec/30_encoding.md R36; spec/10_state.md R12: the block fetches nothing;
spec/70_reset_and_hazards.md R98: the host presents it) is the instruction the next step runs, on the state that differs from `s`
in the input ports only; the decoder reads the same instruction from the table's word. That `withFetchWord` and `tableWord` stand
for the presenting is the model's interface: DESIGN CHOICE, log entry 5. -/
def Obligations.PlacedWordIsRunByTheNextStep : Prop :=
  ∀ (s : State) (i : Instr) (nbits : Nat), 36 ≤ nbits →
    decodeTableWord nbits (encode i).toNat = some i ∧
    step (s.withFetchWord nbits (encode i).toNat) =
      exec i { s with op := opOf (encode i), a := operandOf (encode i) }

/-! ## What each operation computes: its encoding, its result, its frame -/

/-- NARROW (spec/40_convert.md R46): the 32-bit sum with 0x7FFF, bits 31 to 16. -/
def Obligations.NarrowAddsAndTruncates : Prop :=
  ∀ (x : F32) (s : State),
    decode (0x0#4 ++ x) = .ok (.narrow x) ∧
    exec (.narrow x) s =
      .next { s with y := BitVec.ofNat 32 ((x.toNat + 0x7FFF) % 2 ^ 32 / 2 ^ 16), ill := false }

/-- WIDEN (spec/40_convert.md R56): the 16 bits in the upper half, zeros below; `a[31:16]` (`u`) ignored. -/
def Obligations.WidenAppendsSixteenZeros : Prop :=
  ∀ (u : BitVec 16) (h : BF16) (s : State),
    decode (0x1#4 ++ (u ++ h)) = .ok (.widen u h) ∧
    exec (.widen u h) s = .next { s with y := BitVec.ofNat 32 (h.toNat * 2 ^ 16), ill := false }

/-- IS_ZERO (spec/41_classify.md R61): all bits but the sign are zero. -/
def Obligations.IsZeroTestsAllBitsButTheSign : Prop :=
  ∀ (u : BitVec 16) (h : BF16) (s : State),
    decode (0x2#4 ++ (u ++ h)) = .ok (.isZero u h) ∧
    exec (.isZero u h) s =
      .next { s with y := if h.toNat % 2 ^ 15 = 0 then 1 else 0, ill := false }

/-- IS_NEG (spec/41_classify.md R62): the sign bit. -/
def Obligations.IsNegIsTheSignBit : Prop :=
  ∀ (u : BitVec 16) (h : BF16) (s : State),
    decode (0x3#4 ++ (u ++ h)) = .ok (.isNeg u h) ∧
    exec (.isNeg u h) s = .next { s with y := if 0x8000 ≤ h.toNat then 1 else 0, ill := false }

/-- IS_INF (spec/41_classify.md R63): exponent all ones and mantissa zero, "the same as: h[14:0] == 0x7F80". -/
def Obligations.IsInfTestsExponentAndMantissa : Prop :=
  ∀ (u : BitVec 16) (h : BF16) (s : State),
    decode (0x4#4 ++ (u ++ h)) = .ok (.isInf u h) ∧
    exec (.isInf u h) s =
      .next { s with y := if h.toNat / 2 ^ 7 % 2 ^ 8 = 0xFF ∧ h.toNat % 2 ^ 7 = 0 then 1 else 0, ill := false } ∧
    exec (.isInf u h) s = .next { s with y := if h.toNat % 2 ^ 15 = 0x7F80 then 1 else 0, ill := false }

/-- IS_NAN (spec/41_classify.md R64): exponent all ones and mantissa not zero, "the same as: h[14:0] > 0x7F80". -/
def Obligations.IsNanTestsExponentAndMantissa : Prop :=
  ∀ (u : BitVec 16) (h : BF16) (s : State),
    decode (0x5#4 ++ (u ++ h)) = .ok (.isNan u h) ∧
    exec (.isNan u h) s =
      .next { s with y := if h.toNat / 2 ^ 7 % 2 ^ 8 = 0xFF ∧ h.toNat % 2 ^ 7 ≠ 0 then 1 else 0, ill := false } ∧
    exec (.isNan u h) s = .next { s with y := if 0x7F80 < h.toNat % 2 ^ 15 then 1 else 0, ill := false }

/-- EXPONENT (spec/41_classify.md R65): 0 for a zero, 32767 for infinity and NaN, else the field less 127 as a 16-bit two's
complement number, with zeros above it in `y`. -/
def Obligations.ExponentIsUnbiasedWithSentinels : Prop :=
  ∀ (u : BitVec 16) (h : BF16) (s : State),
    decode (0x6#4 ++ (u ++ h)) = .ok (.exponent u h) ∧
    exec (.exponent u h) s =
      .next { s with
        y := if h.toNat % 2 ^ 15 = 0 then 0
          else if h.toNat / 2 ^ 7 % 2 ^ 8 = 0xFF then 0x7FFF
          else (BitVec.ofInt 16 ((h.toNat / 2 ^ 7 % 2 ^ 8 : Nat) - 127 : Int)).setWidth 32,
        ill := false }

/-- MANTISSA (spec/41_classify.md R66): the raw field. -/
def Obligations.MantissaIsTheRawField : Prop :=
  ∀ (u : BitVec 16) (h : BF16) (s : State),
    decode (0x7#4 ++ (u ++ h)) = .ok (.mantissa u h) ∧
    exec (.mantissa u h) s = .next { s with y := BitVec.ofNat 32 (h.toNat % 2 ^ 7), ill := false }

/-- LIMIT (spec/42_limits.md R71, R72): the constant at the index, whatever `a[31:3]` (`u`) holds. -/
def Obligations.LimitReadsTheTable : Prop :=
  ∀ (u : BitVec 29) (i : RomIndex) (s : State),
    decode (0x8#4 ++ (u ++ i)) = .ok (.limit u i) ∧
    exec (.limit u i) s =
      .next { s with
        y := [0x0080, 0xFF7F, 0x7F7F, 0x3C00, 0x0001, 0x7F80, 0x7F81, 0x3F00].getD i.toNat 0,
        ill := false }

/-! ## The step as a whole -/

/-- Reserved codes (spec/30_encoding.md R41): `ill = 1` and `y = 0` whatever `a` holds, no input changed, and the request
marked as refused for the run (spec/60_exceptions.md R78); for the nine codes `ill = 0`, whatever `a` holds, and the mark as it
was. That the reserved request answers a next state, and the mark, are the model's choice: DESIGN CHOICE, log entries 3 and 4. -/
def Obligations.ReservedCodesAreAnsweredWithIll : Prop :=
  ∀ s : State,
    (9 ≤ s.op.toNat → step s = .next { s with y := 0, ill := true, refused := true }) ∧
    (s.op.toNat < 9 → ∃ t, step s = .next t ∧ t.ill = false ∧ t.refused = s.refused ∧ t.op = s.op ∧ t.a = s.a)

/-- `ill` is a function of `op` alone, 1 exactly when `op` is 0x9 or more, and it does not persist: whatever `ill` was before,
a step sets it anew (spec/60_exceptions.md R78; spec/10_state.md R13). That a reserved code answers a next state is log entry
3. -/
def Obligations.IllFollowsOpAloneAndDoesNotPersist : Prop :=
  ∀ s : State, ∃ t, step s = .next t ∧ t.ill = illOf s.op ∧ (t.ill = true ↔ 9 ≤ s.op.toNat)

/-- A step puts `F(op, a)` of spec/30_encoding.md R45 on the output ports, keeps the inputs, and marks an `ill` response: it
always completes (spec/70_reset_and_hazards.md R97). That a reserved code too answers a next state, and the mark
(spec/60_exceptions.md R78), are the model's choice: DESIGN CHOICE, log entries 3 and 4. -/
def Obligations.StepComputesTheResponseFunction : Prop :=
  ∀ s : State,
    step s = .next { s with
      y := (respond s.op s.a).y
      ill := (respond s.op s.a).ill
      refused := s.refused || (respond s.op s.a).ill }

/-- The bits of `a` an operation does not read change nothing: `a[31:16]` for codes 1 to 7, `a[31:3]` for LIMIT, all of `a`
for a reserved code (spec/30_encoding.md R38, R41). That a reserved code answers a next state is log entry 3. -/
def Obligations.IgnoredOperandBitsChangeNothing : Prop :=
  ∀ s s' : State, s.op = s'.op →
    ((1 ≤ s.op.toNat ∧ s.op.toNat ≤ 7 ∧ s.a.toNat % 2 ^ 16 = s'.a.toNat % 2 ^ 16) ∨
      (s.op.toNat = 8 ∧ s.a.toNat % 2 ^ 3 = s'.a.toNat % 2 ^ 3) ∨
      9 ≤ s.op.toNat) →
    ∃ t t', step s = .next t ∧ step s' = .next t' ∧ t.y = t'.y ∧ t.ill = t'.ill

/-- Two states with the same request give the same response, whatever the outputs and the mark held before
(spec/10_state.md R10, R17). That a reserved code answers a next state is log entry 3. -/
def Obligations.SameRequestGivesSameResponse : Prop :=
  ∀ s s' : State, s.op = s'.op → s.a = s'.a →
    ∃ t t', step s = .next t ∧ step s' = .next t' ∧ t.y = t'.y ∧ t.ill = t'.ill

/-- The frame of all nine operations: the inputs and the mark are unchanged and `ill` is 0 (spec/10_state.md R10;
spec/30_encoding.md R39). -/
def Obligations.OperationsChangeOnlyTheOutputs : Prop :=
  ∀ (i : Instr) (s t : State), exec i s = .next t →
    t.op = s.op ∧ t.a = s.a ∧ t.refused = s.refused ∧ t.ill = false

/-- Narrow results are right-aligned with zeros above (spec/30_encoding.md R39): 16 bits for codes 0, 6, 8; one bit for 2 to 5;
seven for 7; and WIDEN leaves the lower half zero (spec/40_convert.md R56). -/
def Obligations.ResultsAreZeroExtended : Prop :=
  ∀ s t : State, step s = .next t →
    ((s.op = 0#4 ∨ s.op = 6#4 ∨ s.op = 8#4) → t.y.toNat < 2 ^ 16) ∧
    (s.op = 1#4 → t.y.toNat % 2 ^ 16 = 0) ∧
    (2 ≤ s.op.toNat ∧ s.op.toNat ≤ 5 → t.y.toNat < 2) ∧
    (s.op = 7#4 → t.y.toNat < 2 ^ 7)

/-! ## Laws of NARROW -/

/-- The carry law (spec/40_convert.md R47): the upper half, plus one when the lower half is 0x8001 or more, modulo 2^16; and a
sum held in more than 32 bits gives the same 16 bits. -/
def Obligations.NarrowAddsOneCarry : Prop :=
  ∀ x : F32,
    (narrow x).toNat = (x.toNat / 2 ^ 16 + if 0x8001 ≤ x.toNat % 2 ^ 16 then 1 else 0) % 2 ^ 16 ∧
    (narrow x).toNat = (x.toNat + 0x7FFF) / 2 ^ 16 % 2 ^ 16

/-- The rounding (spec/40_convert.md R48), for an input that is no NaN and whose result is not pushed to infinity, with `m` the
input's magnitude bits and `r` the result's: below and at the tie the result is the upper half, above it the next magnitude of
the same sign; the result lies within half a unit of the input, and at the tie it lies below it. -/
def Obligations.NarrowRoundsToNearestTiesTowardZero : Prop :=
  ∀ x : F32, (x.toNat % 2 ^ 31 ≤ 0x7F7F8000 ∨ x.toNat % 2 ^ 31 = 0x7F800000) →
    (x.toNat % 2 ^ 16 ≤ 0x8000 → (narrow x).toNat = x.toNat / 2 ^ 16) ∧
    (0x8001 ≤ x.toNat % 2 ^ 16 → (narrow x).toNat = x.toNat / 2 ^ 16 + 1) ∧
    (narrow x).toNat / 2 ^ 15 = x.toNat / 2 ^ 31 ∧
    x.toNat % 2 ^ 31 ≤ (narrow x).toNat % 2 ^ 15 * 2 ^ 16 + 0x8000 ∧
    (narrow x).toNat % 2 ^ 15 * 2 ^ 16 < x.toNat % 2 ^ 31 + 0x8000 ∧
    (x.toNat % 2 ^ 16 = 0x8000 → (narrow x).toNat % 2 ^ 15 * 2 ^ 16 < x.toNat % 2 ^ 31)

/-- Lossless on representable inputs, of every class (spec/40_convert.md R49). -/
def Obligations.NarrowIsLosslessOnRepresentableInputs : Prop :=
  ∀ x : F32, x.toNat % 2 ^ 16 = 0 →
    (narrow x).toNat = x.toNat / 2 ^ 16 ∧ widen (narrow x) = x

/-- Overflow (spec/40_convert.md R50): from 0x7F7F8001 to 0x7F7FFFFF the result is infinity of the input's sign; from
0x7F7F0000 to 0x7F7F8000 it is the largest finite BF16 of that sign. Nothing but `y` shows the event. -/
def Obligations.NarrowOverflowsToInfinity : Prop :=
  ∀ (x : F32) (s : State),
    (0x7F7F8001 ≤ x.toNat % 2 ^ 31 → x.toNat % 2 ^ 31 ≤ 0x7F7FFFFF →
      exec (.narrow x) s = .next { s with y := if 2 ^ 31 ≤ x.toNat then 0xFF80 else 0x7F80, ill := false }) ∧
    (0x7F7F0000 ≤ x.toNat % 2 ^ 31 → x.toNat % 2 ^ 31 ≤ 0x7F7F8000 →
      exec (.narrow x) s = .next { s with y := if 2 ^ 31 ≤ x.toNat then 0xFF7F else 0x7F7F, ill := false })

/-- The four cases of a NaN input (spec/40_convert.md R52), `t` being `x[22:16]` and `l` the lower half: (a), (b) a NaN of the
same sign, (c) an infinity of the same sign, (d) a zero of the opposite sign. -/
def Obligations.NarrowOfNaNFallsInFourCases : Prop :=
  ∀ x : F32, x.toNat / 2 ^ 23 % 2 ^ 8 = 0xFF → x.toNat % 2 ^ 23 ≠ 0 →
    (x.toNat / 2 ^ 16 % 2 ^ 7 ≠ 0 → x.toNat % 2 ^ 16 ≤ 0x8000 →
      (narrow x).toNat = x.toNat / 2 ^ 16 ∧ isNan (narrow x) = true ∧ isNeg (narrow x) = f32Sign x) ∧
    (x.toNat / 2 ^ 16 % 2 ^ 7 ≠ 0x7F → 0x8001 ≤ x.toNat % 2 ^ 16 →
      (narrow x).toNat = x.toNat / 2 ^ 16 + 1 ∧ isNan (narrow x) = true ∧ isNeg (narrow x) = f32Sign x) ∧
    (x.toNat / 2 ^ 16 % 2 ^ 7 = 0 → 1 ≤ x.toNat % 2 ^ 16 → x.toNat % 2 ^ 16 ≤ 0x8000 →
      narrow x = (if 2 ^ 31 ≤ x.toNat then 0xFF80 else 0x7F80) ∧ isInf (narrow x) = true) ∧
    (x.toNat / 2 ^ 16 % 2 ^ 7 = 0x7F → 0x8001 ≤ x.toNat % 2 ^ 16 →
      narrow x = (if 2 ^ 31 ≤ x.toNat then 0x0000 else 0x8000) ∧ isZero (narrow x) = true)

/-- Zeros, small inputs and subnormals (spec/40_convert.md R53): where a zero of the same sign results, where the smallest
subnormal, where an F32 subnormal gives a BF16 subnormal, and where it rounds up to the smallest normal. -/
def Obligations.NarrowOfSmallInputsKeepsSignAndDoesNotFlush : Prop :=
  ∀ x : F32,
    (x.toNat % 2 ^ 31 ≤ 0x00008000 → narrow x = if 2 ^ 31 ≤ x.toNat then 0x8000 else 0x0000) ∧
    (0x00008001 ≤ x.toNat % 2 ^ 31 → x.toNat % 2 ^ 31 ≤ 0x00018000 →
      narrow x = if 2 ^ 31 ≤ x.toNat then 0x8001 else 0x0001) ∧
    (0x00008001 ≤ x.toNat % 2 ^ 31 → x.toNat % 2 ^ 31 ≤ 0x007F8000 → classOf (narrow x) = .subnormal) ∧
    (0x007F8001 ≤ x.toNat % 2 ^ 31 → x.toNat % 2 ^ 31 ≤ 0x007FFFFF →
      narrow x = if 2 ^ 31 ≤ x.toNat then 0x8080 else 0x0080)

/-- The sign (spec/40_convert.md R54): kept, but for the inputs whose bits 30 to 0 are 0x7FFF8001 or more, where it is
inverted. -/
def Obligations.NarrowKeepsTheSignButForWrappingNaNs : Prop :=
  ∀ x : F32, isNeg (narrow x) = if 0x7FFF8001 ≤ x.toNat % 2 ^ 31 then !f32Sign x else f32Sign x

/-- The complete case table of NARROW (spec/40_convert.md R55): the five rows, each with its result by fields and the result's
class. `e = x[30:23]`, `t = x[22:16]`, `l = x[15:0]`. -/
def Obligations.NarrowCaseTable : Prop :=
  ∀ (x : F32) (sg e t l : Nat),
    sg = x.toNat / 2 ^ 31 → e = x.toNat / 2 ^ 23 % 2 ^ 8 → t = x.toNat / 2 ^ 16 % 2 ^ 7 → l = x.toNat % 2 ^ 16 →
    (l ≤ 0x8000 → (narrow x).toNat = sg * 2 ^ 15 + e * 2 ^ 7 + t ∧
      classOf (narrow x) =
        if e = 0 then (if t = 0 then .zero else .subnormal)
        else if e ≤ 254 then .normal
        else (if t = 0 then .infinity else .nan)) ∧
    (0x8001 ≤ l → t ≠ 0x7F → (narrow x).toNat = sg * 2 ^ 15 + e * 2 ^ 7 + (t + 1) ∧
      classOf (narrow x) = if e = 0 then .subnormal else if e ≤ 254 then .normal else .nan) ∧
    (0x8001 ≤ l → t = 0x7F → e ≤ 253 → (narrow x).toNat = sg * 2 ^ 15 + (e + 1) * 2 ^ 7 ∧
      classOf (narrow x) = .normal) ∧
    (0x8001 ≤ l → t = 0x7F → e = 254 → (narrow x).toNat = sg * 2 ^ 15 + 0xFF * 2 ^ 7 ∧
      classOf (narrow x) = .infinity) ∧
    (0x8001 ≤ l → t = 0x7F → e = 255 → (narrow x).toNat = (1 - sg) * 2 ^ 15 ∧ classOf (narrow x) = .zero)

/-! ## Laws of WIDEN, and of both -/

/-- WIDEN is one-to-one, its range is the F32 patterns with a zero lower half, and it copies the sign and exponent fields and
the mantissa to the top of the F32's (spec/40_convert.md R57; spec/30_encoding.md R34). -/
def Obligations.WidenIsOneToOneOntoZeroLowerHalves : Prop :=
  (∀ h k : BF16, widen h = widen k → h = k) ∧
  (∀ x : F32, (∃ h, widen h = x) ↔ x.toNat % 2 ^ 16 = 0) ∧
  (∀ h : BF16, f32Sign (widen h) = signField h ∧ f32Exp (widen h) = expField h ∧
    f32Man (widen h) = manField h ++ 0x0000#16)

/-- The round trips (spec/40_convert.md R58). -/
def Obligations.RoundTrips : Prop :=
  (∀ h : BF16, narrow (widen h) = h) ∧
  (∀ x : F32, widen (narrow x) = x ↔ x.toNat % 2 ^ 16 = 0) ∧
  (∀ x : F32, narrow (widen (narrow x)) = narrow x)

/-- The class, the sign and the exponent field of the widened F32, by its own fields, are those of the BF16
(spec/40_convert.md R60; spec/41_classify.md R70). -/
def Obligations.WidenKeepsTheClass : Prop :=
  ∀ h : BF16, f32ClassOf (widen h) = classOf h ∧ f32Sign (widen h) = isNeg h ∧
    (isZero h = true ↔ f32ClassOf (widen h) = .zero) ∧
    (isInf h = true ↔ f32ClassOf (widen h) = .infinity) ∧
    (isNan h = true ↔ f32ClassOf (widen h) = .nan) ∧
    (f32Exp (widen h)).toNat = h.toNat / 2 ^ 7 % 2 ^ 8

/-- After NARROW the classifier's answers zero, infinite, NaN and negative differ from the F32's own exactly in four ways
(spec/41_classify.md R70): a large finite F32 and a NaN of case (c) answer infinite, a small one and a NaN of case (d) answer
zero, the NaNs of (c) and (d) answer NaN no more, and those of (d) answer the opposite sign. Subnormal and normal are no answers
of the classifier, and nothing is said of them. -/
def Obligations.NarrowChangesTheClassifierAnswersInFourWays : Prop :=
  ∀ x : F32,
    ((isInf (narrow x) = true ∧ f32ClassOf x ≠ .infinity) ↔
      (0x7F7F8001 ≤ x.toNat % 2 ^ 31 ∧ x.toNat % 2 ^ 31 ≤ 0x7F7FFFFF) ∨
      (0x7F800001 ≤ x.toNat % 2 ^ 31 ∧ x.toNat % 2 ^ 31 ≤ 0x7F808000)) ∧
    ((isZero (narrow x) = true ∧ f32ClassOf x ≠ .zero) ↔
      (1 ≤ x.toNat % 2 ^ 31 ∧ x.toNat % 2 ^ 31 ≤ 0x00008000) ∨ 0x7FFF8001 ≤ x.toNat % 2 ^ 31) ∧
    ((isNan (narrow x) = false ∧ f32ClassOf x = .nan) ↔
      (0x7F800001 ≤ x.toNat % 2 ^ 31 ∧ x.toNat % 2 ^ 31 ≤ 0x7F808000) ∨ 0x7FFF8001 ≤ x.toNat % 2 ^ 31) ∧
    (f32ClassOf x = .infinity → isInf (narrow x) = true) ∧
    (f32ClassOf x = .zero → isZero (narrow x) = true) ∧
    (isNan (narrow x) = true → f32ClassOf x = .nan) ∧
    (isNeg (narrow x) ≠ f32Sign x ↔ 0x7FFF8001 ≤ x.toNat % 2 ^ 31)

/-! ## Laws of the classifier and the ROM -/

/-- The five classes as bit conditions (spec/30_encoding.md R35). -/
def Obligations.ClassesAreTheBitConditions : Prop :=
  ∀ h : BF16,
    (classOf h = .zero ↔ h.toNat % 2 ^ 15 = 0) ∧
    (classOf h = .subnormal ↔ h.toNat / 2 ^ 7 % 2 ^ 8 = 0 ∧ h.toNat % 2 ^ 7 ≠ 0) ∧
    (classOf h = .normal ↔ 1 ≤ h.toNat / 2 ^ 7 % 2 ^ 8 ∧ h.toNat / 2 ^ 7 % 2 ^ 8 ≤ 254) ∧
    (classOf h = .infinity ↔ h.toNat / 2 ^ 7 % 2 ^ 8 = 0xFF ∧ h.toNat % 2 ^ 7 = 0) ∧
    (classOf h = .nan ↔ h.toNat / 2 ^ 7 % 2 ^ 8 = 0xFF ∧ h.toNat % 2 ^ 7 ≠ 0)

/-- How the predicates relate (spec/41_classify.md R67): at most one of zero, infinity, NaN; none exactly for subnormals and
normals; flipping the sign bit flips IS_NEG and leaves the other three; infinity or NaN exactly when the exponent field is
0xFF, which is exactly when EXPONENT is the sentinel. -/
def Obligations.PredicatesRelate : Prop :=
  ∀ h : BF16,
    ¬(isZero h = true ∧ isInf h = true) ∧ ¬(isZero h = true ∧ isNan h = true) ∧ ¬(isInf h = true ∧ isNan h = true) ∧
    ((isZero h = false ∧ isInf h = false ∧ isNan h = false) ↔ (classOf h = .subnormal ∨ classOf h = .normal)) ∧
    isNeg (h ^^^ 0x8000#16) = !isNeg h ∧ isZero (h ^^^ 0x8000#16) = isZero h ∧
    isInf (h ^^^ 0x8000#16) = isInf h ∧ isNan (h ^^^ 0x8000#16) = isNan h ∧
    ((isInf h = true ∨ isNan h = true) ↔ expField h = 0xFF#8) ∧
    (exponent h = 0x7FFF#16 ↔ expField h = 0xFF#8)

/-- The arithmetic of EXPONENT (spec/41_classify.md R68): for a pattern that is neither a zero nor infinity or NaN the result,
read as signed, is the field less 127, between -127 and 127; the value 128 is never returned, and the sign bit plays no part
(R65). -/
def Obligations.ExponentIsTheFieldLessTheBias : Prop :=
  ∀ h : BF16,
    (h.toNat % 2 ^ 15 ≠ 0 → h.toNat / 2 ^ 7 % 2 ^ 8 ≠ 0xFF →
      (exponent h).toInt = (h.toNat / 2 ^ 7 % 2 ^ 8 : Nat) - 127 ∧
      -127 ≤ (exponent h).toInt ∧ (exponent h).toInt ≤ 127) ∧
    (exponent h).toInt ≠ 128 ∧
    exponent (h ^^^ 0x8000#16) = exponent h

/-- ROUND_ERROR is what NARROW makes of the F32 pattern of 0.5, 0x3F00 (spec/42_limits.md R73): LIMIT with index 7 and that
NARROW are answered alike. -/
def Obligations.RoundErrorIsNarrowedOneHalf : Prop :=
  ∀ s s' : State, s.op = 0x8#4 → s.a.toNat % 2 ^ 3 = 7 → s'.op = 0x0#4 → s'.a = 0x3F000000#32 →
    ∃ t t', step s = .next t ∧ step s' = .next t' ∧ t.y = 0x3F00 ∧ t'.y = 0x3F00 ∧ t.ill = false ∧ t'.ill = false

/-- The block's own classifier on what LIMIT reads (spec/42_limits.md R75): only entry 5 is infinite, only 6 a NaN, only 1
negative, none a zero; the exponents and the mantissas. -/
def Obligations.ClassifierAgreesWithTheConstants : Prop :=
  ∀ (u : BitVec 29) (i : RomIndex) (s : State), ∃ h : BF16,
    exec (.limit u i) s = .next { s with y := zext32 h, ill := false } ∧
    (isInf h = true ↔ i = 5) ∧ (isNan h = true ↔ i = 6) ∧ (isNeg h = true ↔ i = 1) ∧ isZero h = false ∧
    (exponent h).toInt = [-126, 127, 127, -7, -127, 32767, 32767, -1].getD i.toNat 0 ∧
    (mantissa h).toNat = [0, 0x7F, 0x7F, 0, 1, 0, 1, 0].getD i.toNat 0

/-! ## Runs -/

/-- A run of requests answers each as if it were the only one, from every state, and always to its end; the mark at the end is
set exactly if it was set before or some response had `ill = 1` (spec/20_memory.md R26; spec/70_reset_and_hazards.md R94,
R97; spec/60_exceptions.md R78). That a reserved request answers a next state, and the mark, are the model's choice: DESIGN
CHOICE, log entries 3 and 4. -/
def Obligations.RunAnswersEachRequestAlone : Prop :=
  ∀ (ws : List Request) (s : State), ∃ t,
    runRequests ws s = .next (t, ws.map respondWord) ∧
    t.refused = (s.refused || ws.any fun w => (respondWord w).ill)

/-- Permuted requests get, request by request, the same responses, whatever states the two runs start from
(spec/20_memory.md R26). That a run goes on past a reserved request is log entry 3. -/
def Obligations.PermutedRunsGetThePermutedResponses : Prop :=
  ∀ (ws ws' : List Request) (s s' t t' : State) (rs rs' : List Response),
    ws.Perm ws' → runRequests ws s = .next (t, rs) → runRequests ws' s' = .next (t', rs') →
    (ws.zip rs).Perm (ws'.zip rs')

/-- A run that starts with the mark clear ends with it clear exactly if every request had a defined code, exactly if no
response had `ill = 1` (spec/60_exceptions.md R78; spec/70_reset_and_hazards.md R97). The mark, and that the run goes on past a
reserved request, are the model's choice: DESIGN CHOICE, log entries 3 and 4. -/
def Obligations.RunIsBadExactlyIfARequestWasReserved : Prop :=
  ∀ (ws : List Request) (s t : State) (rs : List Response),
    runRequests ws s = .next (t, rs) → NoRefusal s →
    (NoRefusal t ↔ ∀ w ∈ ws, (opOf w).toNat < 9) ∧
    (NoRefusal t ↔ ∀ r ∈ rs, r.ill = false)

/-- Every step keeps the model's invariant: settled outputs, and every `ill` response marked (spec/10_state.md R17;
spec/60_exceptions.md R78). The mark is the model's own field: log entries 3 and 4. -/
def Obligations.StepKeepsTheOutputsSettled : Prop :=
  ∀ s t : State, Inv s → step s = .next t → Inv t

/-- The first state meets the invariant. Its port values are the model's choice, DESIGN CHOICE of log entry 2: the spec gives
none. -/
def Obligations.ResetMeetsTheInvariant : Prop :=
  Inv State.reset

/-- While the host holds a request, its response stays: on settled ports a step changes nothing, and after any step the ports
are so (spec/10_state.md R17; spec/70_reset_and_hazards.md R95). The mark is the model's own field: log entries 3 and 4. -/
def Obligations.HeldRequestKeepsItsResponse : Prop :=
  (∀ s : State, Inv s → step s = .next s) ∧
  (∀ s t : State, step s = .next t → step t = .next t)

/-! ## Script lines -/

/-- The pseudo-operations that are other names of one operation run as it (spec/30_encoding.md R44). -/
def Obligations.AliasLinesRunTheirOperation : Prop :=
  ∀ (b : Option String) (o : Operand) (h : HostState),
    runLine (.send b .sign o) h = runLine (.send b .isNeg o) h ∧
    runLine (.send b .isInfinite o) h = runLine (.send b .isInf o) h ∧
    runLine (.send b .isInfinity o) h = runLine (.send b .isInf o) h

/-- `ROUNDTRIP x`, with `x` what a literal or a bound name stands for (spec/30_encoding.md R43), sends NARROW and then WIDEN of
its response (R44), so its last response is `x` itself exactly when the lower half of `x` is zero (spec/40_convert.md R58). In a
branch that does not run the line does nothing. Which names the line binds, `t` to the NARROW and its own name to the WIDEN, is
the model's choice: DESIGN CHOICE, log entry 11. -/
def Obligations.RoundtripLineSendsNarrowThenWiden : Prop :=
  ∀ (b : Option String) (o : Operand) (x : F32) (h : HostState), operandValue 0x0#4 o h.names = .ok x →
    (h.running = true →
      ∃ h' y, runLine (.send b .roundtrip o) h = .ok h' ∧
        h'.responses = ⟨y, false⟩ :: ⟨zext32 (narrow x), false⟩ :: h.responses ∧
        h'.names = bindName b y (("t", zext32 (narrow x)) :: h.names) ∧
        y = widen (narrow x) ∧
        (y = x ↔ x.toNat % 2 ^ 16 = 0)) ∧
    (h.running = false → runLine (.send b .roundtrip o) h = .ok h)

/-- `LIMIT NAME` is answered with the pattern of that name (spec/30_encoding.md R44; spec/20_memory.md R24; spec/42_limits.md
R71). -/
def Obligations.LimitNameLineReadsItsConstant : Prop :=
  ∀ (b : Option String) (n : LimitName) (h : HostState), h.running = true →
    ∃ h', runLine (.send b .limit (.limitName n)) h = .ok h' ∧
      h'.responses = ⟨match n with
        | .min => 0x0080
        | .lowest => 0xFF7F
        | .max => 0x7F7F
        | .epsilon => 0x3C00
        | .denormMin => 0x0001
        | .infinity => 0x7F80
        | .quietNan => 0x7F81
        | .roundError => 0x3F00, false⟩ :: h.responses

/-- A well-formed script without `if` (spec/30_encoding.md R43) runs to its end from every state
(spec/70_reset_and_hazards.md R97). A RAW line with a reserved code is a refusal in the sense of spec/60_exceptions.md R78: it is
answered and marked, and the run goes on (log entry 3). That it goes on past an `assert` that does not hold is the model's choice:
DESIGN CHOICE, log entry 11. Scripts with `if` are the three statements after this one. -/
def Obligations.StraightScriptsComplete : Prop :=
  ∀ (ls : List Line) (s : State), scriptWellFormed ls = true → (∀ n v, Line.ifEq n v ∉ ls) →
    ∃ h, runScript ls (.start s) = .ok h

/-- `if name == literal then ts else es end` runs exactly the branch its test chooses, as if that branch alone stood there, with
`ts` and `es` themselves well-formed and possibly holding further `if`s (spec/30_encoding.md R43). The second clause, an `if`
closed without an `else`, and `if`s inside a branch are the model's choice: DESIGN CHOICE, log entry 11. -/
def Obligations.IfRunsExactlyTheChosenBranch : Prop :=
  ∀ (n : String) (v x : BitVec 32) (ts es : List Line) (bound bound' : List String) (h : HostState),
    h.running = true → lookupName n h.names = .ok x →
    linesWellFormed ts bound [] = true → linesWellFormed es bound' [] = true →
    runScript (.ifEq n v :: ts ++ .elseLine :: es ++ [.endLine]) h = runScript (if x = v then ts else es) h ∧
    runScript (.ifEq n v :: ts ++ [.endLine]) h = if x = v then runScript ts h else .ok h

/-- Well-formed lines in a branch that does not run leave everything as it is: nothing is sent, no name is bound, no name is
looked up (spec/30_encoding.md R43; spec/95_test_vectors.md P2: "not sent"). That `if`s among them are skipped whole is the
model's choice: DESIGN CHOICE, log entry 11. -/
def Obligations.LinesOfABranchNotTakenDoNothing : Prop :=
  ∀ (ls : List Line) (bound : List String) (h : HostState), h.running = false →
    linesWellFormed ls bound [] = true → runScript ls h = .ok h

/-- A well-formed script, with or without `if`, runs to its end with every `if` closed, or stops at a name that no line that ran
has bound: it never stops at the block, at an operand of the wrong kind or at an unmatched line (spec/30_encoding.md R43;
spec/70_reset_and_hazards.md R97). The stop at an unbound name, and the run going on past an `assert` that does not hold, are the
model's choice: DESIGN CHOICE, log entry 11. -/
def Obligations.WellFormedScriptsStopOnlyAtUnboundNames : Prop :=
  ∀ (ls : List Line) (s : State), scriptWellFormed ls = true →
    (∃ h, runScript ls (.start s) = .ok h ∧ h.nest = []) ∨ (∃ n, runScript ls (.start s) = .error (.unboundName n))
end

