-- ==== Sys2Proof/Config.lean ====
section
/-! DEFINITION. The two parameters the spec leaves open (spec/92_eei_decisions.md, "Open parameters"). No rule reads either,
and no meaning of this model does. Every other parameter is fixed by spec/00_scope.md R5 and stands where it is used. -/

namespace Sys2Proof

/-- The two orders in which a host may store a BF16 as two bytes (spec/20_memory.md R21). -/
inductive WireByteOrder where
  | little
  | big
deriving DecidableEq, Repr, Inhabited

/-- `WIRE_BYTE_ORDER` (spec/92_eei_decisions.md D13): open, and outside the block. -/
opaque Config.wireByteOrder : WireByteOrder

/-- One less than `T_PD`, in an unnamed unit of time (spec/92_eei_decisions.md D18): open. -/
opaque Config.propagationDelayLessOne : Nat

/-- `T_PD`, the propagation delay, a positive time (spec/70_reset_and_hazards.md R95). -/
def Config.propagationDelay : Nat := Config.propagationDelayLessOne + 1

end Sys2Proof
end

