-- ==== Sys2Proof/Laws/Decode.lean ====
section
/-! SUPPORT. The fields of a request word. -/

namespace Sys2Proof.Laws

theorem append_toNat {m n : Nat} (v : BitVec m) (w : BitVec n) :
    (v ++ w).toNat = v.toNat * 2 ^ n + w.toNat := by
  rw [BitVec.toNat_append, ← Nat.shiftLeft_add_eq_or_of_lt w.isLt, Nat.shiftLeft_eq]

theorem opOf_toNat (w : Request) : (opOf w).toNat = w.toNat / 2 ^ 32 := by
  have := w.isLt
  simp only [opOf, BitVec.extractLsb'_toNat, Nat.shiftRight_eq_div_pow]
  omega

theorem operandOf_toNat (w : Request) : (operandOf w).toNat = w.toNat % 2 ^ 32 := by
  simp [operandOf, BitVec.extractLsb'_toNat]

@[simp] theorem opOf_packRequest (op : OpCode) (a : BitVec 32) : opOf (packRequest op a) = op := by
  apply BitVec.eq_of_toNat_eq
  have := a.isLt
  rw [opOf_toNat, packRequest, append_toNat]
  omega

@[simp] theorem operandOf_packRequest (op : OpCode) (a : BitVec 32) : operandOf (packRequest op a) = a := by
  apply BitVec.eq_of_toNat_eq
  have := a.isLt
  rw [operandOf_toNat, packRequest, append_toNat]
  omega

@[simp] theorem packRequest_fields (w : Request) : packRequest (opOf w) (operandOf w) = w := by
  apply BitVec.eq_of_toNat_eq
  rw [packRequest, append_toNat, opOf_toNat, operandOf_toNat]
  omega

theorem bf16Operand_toNat (a : BitVec 32) : (bf16Operand a).toNat = a.toNat % 2 ^ 16 := by
  simp [bf16Operand, BitVec.extractLsb'_toNat]

theorem bf16Ignored_toNat (a : BitVec 32) : (bf16Ignored a).toNat = a.toNat / 2 ^ 16 := by
  have := a.isLt
  simp only [bf16Ignored, BitVec.extractLsb'_toNat, Nat.shiftRight_eq_div_pow]
  omega

theorem indexOperand_toNat (a : BitVec 32) : (indexOperand a).toNat = a.toNat % 2 ^ 3 := by
  simp [indexOperand, BitVec.extractLsb'_toNat]

theorem indexIgnored_toNat (a : BitVec 32) : (indexIgnored a).toNat = a.toNat / 2 ^ 3 := by
  have := a.isLt
  simp only [indexIgnored, BitVec.extractLsb'_toNat, Nat.shiftRight_eq_div_pow]
  omega

end Sys2Proof.Laws
end

