-- ==== Sys2Proof/Laws/PerInstr.lean ====
section
/-! SUPPORT. Families of lemmas, one per constructor of Instr. -/

namespace Sys2Proof.Laws.DefinedCode

/-- The request word of an operation has one of the nine defined codes (spec/30_encoding.md R40, R41), and its operation code is
the bits 35 to 32 of the word. -/
def Statement (i : Instr) : Prop := (encode i).toNat / 2 ^ 32 < 9

theorem of_pack (op : OpCode) (a : BitVec 32) (h : op.toNat < 9) : (packRequest op a).toNat / 2 ^ 32 < 9 := by
  rw [← opOf_toNat, opOf_packRequest]; exact h

theorem narrow (x : F32) : Statement (.narrow x) := of_pack _ _ (by decide)
theorem widen (u : BitVec 16) (h : BF16) : Statement (.widen u h) := of_pack _ _ (by decide)
theorem isZero (u : BitVec 16) (h : BF16) : Statement (.isZero u h) := of_pack _ _ (by decide)
theorem isNeg (u : BitVec 16) (h : BF16) : Statement (.isNeg u h) := of_pack _ _ (by decide)
theorem isInf (u : BitVec 16) (h : BF16) : Statement (.isInf u h) := of_pack _ _ (by decide)
theorem isNan (u : BitVec 16) (h : BF16) : Statement (.isNan u h) := of_pack _ _ (by decide)
theorem exponent (u : BitVec 16) (h : BF16) : Statement (.exponent u h) := of_pack _ _ (by decide)
theorem mantissa (u : BitVec 16) (h : BF16) : Statement (.mantissa u h) := of_pack _ _ (by decide)
theorem limit (u : BitVec 29) (i : RomIndex) : Statement (.limit u i) := of_pack _ _ (by decide)

end Sys2Proof.Laws.DefinedCode
end

