-- ==== Sys2Proof/Laws/State.lean ====
section
/-! SUPPORT. The small lemmas of State's updates: what each leaves in each field, and what each shared operation answers. -/

namespace Sys2Proof.Laws

open Machine

@[simp] theorem present_op (w : Request) (s : State) : (present w s).op = opOf w := rfl
@[simp] theorem present_a (w : Request) (s : State) : (present w s).a = operandOf w := rfl
@[simp] theorem present_y (w : Request) (s : State) : (present w s).y = s.y := rfl
@[simp] theorem present_ill (w : Request) (s : State) : (present w s).ill = s.ill := rfl
@[simp] theorem present_refused (w : Request) (s : State) : (present w s).refused = s.refused := rfl

/-- All that `answer` can do. -/
theorem answer_next_iff (y : BitVec 32) (s t : State) :
    answer y s = .next t ↔ t = { s with y := y, ill := false } := by
  constructor
  · intro h; injection h with h; exact h.symm
  · rintro rfl; rfl

/-- All that `answerReserved` can do. -/
theorem answerReserved_next_iff (s t : State) :
    answerReserved s = .next t ↔ t = { s with y := 0, ill := true, refused := true } := by
  constructor
  · intro h; injection h with h; exact h.symm
  · rintro rfl; rfl

/-- All that a meaning can do: it puts a result on `y`, clears `ill` and leaves every other port and the mark. -/
theorem exec_answers (i : Instr) (s : State) : ∃ y, exec i s = answer y s := by
  cases i <;> exact ⟨_, rfl⟩

/-- All that a step can do: it answers a result of a defined operation, or the reserved response. -/
theorem step_answers (s : State) : (∃ y, step s = answer y s) ∨ step s = answerReserved s := by
  unfold step
  split
  · exact Or.inl (exec_answers _ _)
  · exact Or.inr rfl

/-- A step answers a next state, with the inputs as they were. -/
theorem step_next (s : State) : ∃ t, step s = .next t ∧ t.op = s.op ∧ t.a = s.a := by
  obtain ⟨y, h⟩ | h := step_answers s
  · exact ⟨_, h, rfl, rfl⟩
  · exact ⟨_, h, rfl, rfl⟩

end Sys2Proof.Laws
end

