-- ==== Sys2Proof/Laws/Script.lean ====
section
/-! SUPPORT. What the host's shared operation, sending one request word, can do. -/

namespace Sys2Proof.Laws

open Machine

/-- Presenting a request and evaluating it always answers. -/
theorem ask_next (w : Request) (s : State) : ∃ t, ask w s = .next t ∧ t.op = opOf w ∧ t.a = operandOf w := by
  obtain ⟨t, h, ho, ha⟩ := step_next (present w s)
  exact ⟨t, h, ho, ha⟩

/-- Sending a request word never fails: it binds the name to `y` and keeps the response. -/
theorem sendWord_ok (b : Option String) (w : Request) (h : HostState) :
    ∃ t, ask w h.block = .next t ∧
      sendWord b w h =
        .ok { h with block := t, names := bindName b t.y h.names, responses := responseOf t :: h.responses } := by
  obtain ⟨t, ht, -, -⟩ := ask_next w h.block
  exact ⟨t, ht, by simp [sendWord, ht]⟩

/-- Sending a request neither reads nor changes the open `if`s. -/
theorem sendWord_nest (b : Option String) (w : Request) (h : HostState) (k : List Branch) :
    sendWord b w { h with nest := k } =
      match sendWord b w h with
      | .ok g => .ok { g with nest := k }
      | .error e => .error e := by
  unfold sendWord
  dsimp only
  cases ask w h.block <;> rfl

/-- Sending the lines of an expansion neither reads nor changes the open `if`s. -/
theorem sendAll_nest (cs : List CoreSend) (h : HostState) (k : List Branch) :
    sendAll cs { h with nest := k } =
      match sendAll cs h with
      | .ok g => .ok { g with nest := k }
      | .error e => .error e := by
  induction cs generalizing h with
  | nil => rfl
  | cons c cs ih =>
    simp only [sendAll]
    cases operandValue c.op c.operand h.names with
    | error e => rfl
    | ok a =>
      dsimp only
      rw [sendWord_nest]
      cases sendWord c.bind (packRequest c.op a) h with
      | error e => rfl
      | ok g => exact ih g

/-- A script in two parts runs as the one and then the other. -/
theorem runScript_append (as bs : List Line) (h : HostState) :
    runScript (as ++ bs) h =
      match runScript as h with
      | .ok g => runScript bs g
      | .error e => .error e := by
  induction as generalizing h with
  | nil => rfl
  | cons a as ih =>
    simp only [List.cons_append, runScript]
    cases runLine a h with
    | ok g => exact ih g
    | error e => rfl

end Sys2Proof.Laws
end

