-- ==== Sys2Proof/Laws/Values.lean ====
section
/-! SUPPORT. Each function of the block read as arithmetic on naturals: one lemma per function. -/

namespace Sys2Proof.Laws

open Machine

theorem zext32_toNat {n : Nat} (hn : n ≤ 32) (v : BitVec n) : (zext32 v).toNat = v.toNat := by
  rw [zext32, BitVec.toNat_setWidth]
  exact Nat.mod_eq_of_lt (lt_of_lt_of_le v.isLt (Nat.pow_le_pow_right (by decide) hn))

theorem flagResult_eq (b : Bool) : flagResult b = if b then 1 else 0 := by
  cases b <;> rfl

theorem narrow_toNat (x : F32) : (narrow x).toNat = (x.toNat + 0x7FFF) / 2 ^ 16 % 2 ^ 16 := by
  have := x.isLt
  simp only [narrow, roundConst, BitVec.extractLsb'_toNat, BitVec.toNat_add, BitVec.toNat_ofNat,
    Nat.shiftRight_eq_div_pow]
  omega

theorem widen_toNat (h : BF16) : (widen h).toNat = h.toNat * 2 ^ 16 := by
  rw [widen, append_toNat]; simp

theorem expField_toNat (h : BF16) : (expField h).toNat = h.toNat / 2 ^ 7 % 2 ^ 8 := by
  simp only [expField, BitVec.extractLsb'_toNat, Nat.shiftRight_eq_div_pow]

theorem manField_toNat (h : BF16) : (manField h).toNat = h.toNat % 2 ^ 7 := by
  simp [manField, BitVec.extractLsb'_toNat]

theorem signField_eq (h : BF16) : signField h = decide (2 ^ 15 ≤ h.toNat) := by
  have := h.isLt
  rw [signField, BitVec.getLsbD, Nat.testBit_eq_decide_div_mod_eq]
  congr 1
  apply propext
  omega

theorem f32Exp_toNat (x : F32) : (f32Exp x).toNat = x.toNat / 2 ^ 23 % 2 ^ 8 := by
  simp only [f32Exp, BitVec.extractLsb'_toNat, Nat.shiftRight_eq_div_pow]

theorem f32Man_toNat (x : F32) : (f32Man x).toNat = x.toNat % 2 ^ 23 := by
  simp [f32Man, BitVec.extractLsb'_toNat]

theorem f32Sign_eq (x : F32) : f32Sign x = decide (2 ^ 31 ≤ x.toNat) := by
  have := x.isLt
  rw [f32Sign, BitVec.getLsbD, Nat.testBit_eq_decide_div_mod_eq]
  congr 1
  apply propext
  omega

theorem isZero_iff (h : BF16) : isZero h = true ↔ h.toNat % 2 ^ 15 = 0 := by
  simp [isZero, ← BitVec.toNat_inj, BitVec.extractLsb'_toNat]

theorem isNeg_iff (h : BF16) : isNeg h = true ↔ 2 ^ 15 ≤ h.toNat := by
  simp [isNeg, signField_eq]

theorem isInf_iff (h : BF16) : isInf h = true ↔ h.toNat / 2 ^ 7 % 2 ^ 8 = 255 ∧ h.toNat % 2 ^ 7 = 0 := by
  simp [isInf, ← BitVec.toNat_inj, expField_toNat, manField_toNat]

theorem isNan_iff (h : BF16) : isNan h = true ↔ h.toNat / 2 ^ 7 % 2 ^ 8 = 255 ∧ h.toNat % 2 ^ 7 ≠ 0 := by
  simp [isNan, ← BitVec.toNat_inj, expField_toNat, manField_toNat]

/-- The class in terms of the two fields, as numbers. -/
theorem classOfFields_eq (e : BitVec 8) (z : Bool) :
    classOfFields e z = if e.toNat = 0 then (if z then .zero else .subnormal)
      else if e.toNat = 255 then (if z then .infinity else .nan) else .normal := by
  simp [classOfFields, ← BitVec.toNat_inj]

end Sys2Proof.Laws
end

