-- ==== Sys2Proof/Tests/Slice0.lean ====
section
/-! SUPPORT. The model's own tests. Expected values are those of spec/95_test_vectors.md, by vector number, or of the rule named. -/

namespace Sys2Proof.Tests

open Machine

/-- Ports holding a request, with outputs that no request of these tests leaves. -/
def ports (op : OpCode) (a : BitVec 32) : State := { op := op, a := a, y := 0xDEADBEEF, ill := true, refused := false }

/-- The response of one step: `y` and `ill`. -/
def rsp (s : State) : Option (BitVec 32 × Bool) :=
  match step s with
  | .next t => some (t.y, t.ill)
  | .fault _ => none
  | .refused _ => none

/-! Well-formedness. `Instr` has no ill-formed term (spec/30_encoding.md R41); a script does, one for each check. -/

theorem test_wf_every_operand : Instr.wellFormed (.widen 0xFFFF 0x7F81) = true ∧ Instr.wellFormed (.limit 0x1FFFFFFF 7) = true := by
  decide
theorem test_script_ok :
    scriptWellFormed [.send (some "n") .narrow (.literal 0x7F7FFFFF), .ifEq "n" 0x7F80, .send (some "k") .limit (.limitName .infinity),
      .elseLine, .send (some "k") .limit (.limitName .max), .endLine, .assertEq "k" 0x7F80] = true := by decide
theorem test_script_unbound_operand : scriptWellFormed [.send none .widen (.name "n")] = false := by decide
theorem test_script_unbound_assert : scriptWellFormed [.assertEq "n" 0] = false := by decide
theorem test_script_unbound_if : scriptWellFormed [.ifEq "n" 0, .endLine] = false := by decide
theorem test_script_limit_name_elsewhere : scriptWellFormed [.send none .widen (.limitName .max)] = false := by decide
theorem test_script_else_without_if : scriptWellFormed [.elseLine] = false := by decide
theorem test_script_two_elses :
    scriptWellFormed [.raw "n" 0, .ifEq "n" 0, .elseLine, .elseLine, .endLine] = false := by decide
theorem test_script_end_without_if : scriptWellFormed [.endLine] = false := by decide
theorem test_script_if_without_end : scriptWellFormed [.raw "n" 0, .ifEq "n" 0] = false := by decide

/-! Decoding: words written out from spec/30_encoding.md R36, R40, `op` in bits 35 to 32. -/

theorem test_decode_narrow : decode 0b0000_01000000010010010000111111011011#36 = .ok (.narrow 0x40490FDB) := by decide
theorem test_decode_widen : decode 0b0001_1111111111111111_0011111110000000#36 = .ok (.widen 0xFFFF 0x3F80) := by decide
theorem test_decode_isZero : decode 0b0010_0000000000000000_1000000000000000#36 = .ok (.isZero 0 0x8000) := by decide
theorem test_decode_isNeg : decode 0b0011_0000000000000000_1011111110000000#36 = .ok (.isNeg 0 0xBF80) := by decide
theorem test_decode_isInf : decode 0b0100_0000000000000000_0111111110000000#36 = .ok (.isInf 0 0x7F80) := by decide
theorem test_decode_isNan : decode 0b0101_1010101111001101_0111111111000000#36 = .ok (.isNan 0xABCD 0x7FC0) := by decide
theorem test_decode_exponent : decode 0b0110_0000000000000001_0011110000000000#36 = .ok (.exponent 1 0x3C00) := by decide
theorem test_decode_mantissa : decode 0b0111_1000000000000000_0100000001001001#36 = .ok (.mantissa 0x8000 0x4049) := by decide
theorem test_decode_limit : decode 0b1000_00010010001101000101011001110_101#36 = .ok (.limit 0x2468ACE 5) := by decide
theorem test_decode_first_reserved : decode 0x900000000#36 = .error (.reservedOp 9) := by decide
theorem test_decode_last_reserved : decode 0xFFFFFFFFF#36 = .error (.reservedOp 15) := by decide
theorem test_table_word_limit : decodeTableWord 40 0x800000002 = some (.limit 0 2) := by decide
theorem test_table_word_op_only_below_nbits : decodeTableWord 32 0x800000002 = some (.narrow 2) := by decide

/-! The encoder on the printed requests. -/

theorem test_encode_narrow : encode (.narrow 0x40490FDB) = 0x040490FDB#36 := by decide
theorem test_encode_limit : encode (.limit 0 2) = 0x800000002#36 := by decide

/-! One step. -/

theorem test_narrow_tie_odd : rsp (ports 0 0x3F818000) = some (0x3F81, false) := by decide -- N14
theorem test_narrow_wraps : rsp (ports 0 0xFFFFFFFF) = some (0, false) := by decide -- N55
theorem test_widen : rsp (ports 1 0xFFFF3F80) = some (0x3F800000, false) := by decide -- 2.2, ignored bits
theorem test_widen_nan : rsp (ports 1 0xFF81) = some (0xFF810000, false) := by decide -- K22
theorem test_isZero_negative_zero : rsp (ports 2 0x8000) = some (1, false) := by decide -- K2
theorem test_isZero_subnormal : rsp (ports 2 0x0001) = some (0, false) := by decide -- K3
theorem test_isNeg_nan : rsp (ports 3 0xFFC0) = some (1, false) := by decide -- K24
theorem test_isNeg_max : rsp (ports 3 0x7F7F) = some (0, false) := by decide -- K17
theorem test_isInf_negative : rsp (ports 4 0xFF80) = some (1, false) := by decide -- K20
theorem test_isInf_nan : rsp (ports 4 0x7F81) = some (0, false) := by decide -- K21
theorem test_isNan_ignores_upper : rsp (ports 5 0xABCD7FC0) = some (1, false) := by decide -- P5 line 4
theorem test_isNan_infinity : rsp (ports 5 0x7F80) = some (0, false) := by decide -- K19
theorem test_exponent_negative : rsp (ports 6 0x3C00) = some (0xFFF9, false) := by decide -- K10
theorem test_exponent_subnormal : rsp (ports 6 0x8001) = some (0xFF81, false) := by decide -- K4
theorem test_mantissa : rsp (ports 7 0x80004049) = some (0x49, false) := by decide -- 2.2, ignored bits
theorem test_mantissa_full : rsp (ports 7 0xFFFF) = some (0x7F, false) := by decide -- K26
theorem test_limit_all_ones : rsp (ports 8 0xFFFFFFFF) = some (0x3F00, false) := by decide -- L10, X5
theorem test_limit_ignores_upper : rsp (ports 8 0x12345675) = some (0x7F80, false) := by decide -- L11
theorem test_reserved_first : rsp (ports 9 0x3F800000) = some (0, true) := by decide -- X2
theorem test_reserved_last : rsp (ports 15 0xFFFFFFFF) = some (0, true) := by decide -- X4
theorem test_placed_runs_first : rsp (State.reset.withFetchWord 40 0x800000002) = some (0x7F7F, false) := by decide -- L3

/-! Script lines (P1, P4, P5). -/

theorem test_roundtrip_line :
    (match runLine (.send (some "w") .roundtrip (.literal 0x40490FDB)) (.start .reset) with
      | .ok h => h.names
      | .error _ => []) = [("w", 0x40490000), ("t", 0x4049)] := by decide -- P1 lines 1, 2
theorem test_raw_reserved_is_marked :
    (match runLine (.raw "r" 0x900000000) (.start .reset) with
      | .ok h => (h.block.refused, h.responses)
      | .error _ => (false, [])) = (true, [⟨0, true⟩]) := by decide -- P5 line 1
theorem test_line_not_taken_sends_nothing :
    (match runLine (.send (some "k") .limit (.limitName .max)) { HostState.start .reset with nest := [.waiting] } with
      | .ok h => h.responses
      | .error _ => [⟨0, false⟩]) = [] := by decide -- P2 line 7
theorem test_request_digits : requestDigits 0x040490FDB = [0, 4, 0, 4, 9, 0, 0xF, 0xD, 0xB] := by decide -- R46

/-! Witnesses: for each statement with hypotheses, values that meet them, at the boundaries of each clause. -/

theorem witness_decode_ok : decode (packRequest (ports 8 2).op (ports 8 2).a) = .ok (.limit 0 2) := by decide
theorem witness_placed_boundary :
    36 ≤ 36 ∧ step (State.reset.withFetchWord 36 (encode (.limit 0x1FFFFFFF 7)).toNat) =
      exec (.limit 0x1FFFFFFF 7) { State.reset with op := 8, a := 0xFFFFFFFF } := ⟨by decide, rfl⟩
theorem witness_placed_bytes : 36 ≤ 40 := by decide
theorem witness_exec_next : exec (.narrow 0x3F808001) (ports 0 0) = .next { ports 0 0 with y := 0x3F81, ill := false } := by rfl
theorem witness_reserved_and_defined : 9 ≤ (ports 9 0).op.toNat ∧ (ports 8 0).op.toNat < 9 := by decide
theorem witness_ignored_first_bf16_code :
    (ports 1 0xFFFF3F80).op = (ports 1 0x3F80).op ∧ 1 ≤ (ports 1 0xFFFF3F80).op.toNat ∧ (ports 1 0xFFFF3F80).op.toNat ≤ 7 ∧
      (ports 1 0xFFFF3F80).a.toNat % 2 ^ 16 = (ports 1 0x3F80).a.toNat % 2 ^ 16 := by decide
theorem witness_ignored_last_bf16_code :
    1 ≤ (ports 7 0x80004049).op.toNat ∧ (ports 7 0x80004049).op.toNat ≤ 7 ∧
      (ports 7 0x80004049).a.toNat % 2 ^ 16 = (ports 7 0x4049).a.toNat % 2 ^ 16 := by decide
theorem witness_ignored_limit : (ports 8 8).op.toNat = 8 ∧ (ports 8 8).a.toNat % 2 ^ 3 = (ports 8 0).a.toNat % 2 ^ 3 := by decide
theorem witness_ignored_reserved : (ports 9 1).op = (ports 9 2).op ∧ 9 ≤ (ports 9 1).op.toNat := by decide
theorem witness_same_request : (ports 5 0x7F81).op = (present 0x500007F81 .reset).op ∧ (ports 5 0x7F81).a = (present 0x500007F81 .reset).a := by
  decide
theorem witness_zero_extended_sixteen : step (ports 0 0) = .next { ports 0 0 with y := 0, ill := false } := by rfl
theorem witness_zero_extended_widen : (ports 1 0).op = 1 ∧ step (ports 1 1) = .next { ports 1 1 with y := 0x10000, ill := false } :=
  ⟨rfl, rfl⟩
theorem witness_zero_extended_flags :
    2 ≤ (ports 2 0).op.toNat ∧ (ports 5 0).op.toNat ≤ 5 ∧ step (ports 2 0) = .next { ports 2 0 with y := 1, ill := false } :=
  ⟨by decide, by decide, rfl⟩
theorem witness_zero_extended_mantissa :
    (ports 7 0).op = 7 ∧ step (ports 7 0x7F) = .next { ports 7 0x7F with y := 0x7F, ill := false } := ⟨rfl, rfl⟩
theorem witness_round_domain_top : (0x7F7F8000#32).toNat % 2 ^ 31 ≤ 0x7F7F8000 ∧ (0x7F7F8000#32).toNat % 2 ^ 16 = 0x8000 := by decide
theorem witness_round_infinity : (0xFF800000#32).toNat % 2 ^ 31 = 0x7F800000 ∧ (0xFF800000#32).toNat % 2 ^ 16 ≤ 0x8000 := by decide
theorem witness_round_up : (0x3F808001#32).toNat % 2 ^ 31 ≤ 0x7F7F8000 ∧ 0x8001 ≤ (0x3F808001#32).toNat % 2 ^ 16 := by decide
theorem witness_lossless : (0x7FC00000#32).toNat % 2 ^ 16 = 0 := by decide
theorem witness_overflow_ends :
    0x7F7F8001 ≤ (0x7F7F8001#32).toNat % 2 ^ 31 ∧ (0xFF7FFFFF#32).toNat % 2 ^ 31 ≤ 0x7F7FFFFF ∧
      0x7F7F0000 ≤ (0x7F7F0000#32).toNat % 2 ^ 31 ∧ (0xFF7F8000#32).toNat % 2 ^ 31 ≤ 0x7F7F8000 := by decide
theorem witness_nan_a :
    (0x7FFF8000#32).toNat / 2 ^ 23 % 2 ^ 8 = 0xFF ∧ (0x7FFF8000#32).toNat % 2 ^ 23 ≠ 0 ∧
      (0x7FFF8000#32).toNat / 2 ^ 16 % 2 ^ 7 ≠ 0 ∧ (0x7FFF8000#32).toNat % 2 ^ 16 ≤ 0x8000 := by decide
theorem witness_nan_b :
    (0x7F808001#32).toNat / 2 ^ 23 % 2 ^ 8 = 0xFF ∧ (0x7F808001#32).toNat % 2 ^ 23 ≠ 0 ∧
      (0x7F808001#32).toNat / 2 ^ 16 % 2 ^ 7 ≠ 0x7F ∧ 0x8001 ≤ (0x7F808001#32).toNat % 2 ^ 16 := by decide
theorem witness_nan_c :
    (0x7F808000#32).toNat / 2 ^ 23 % 2 ^ 8 = 0xFF ∧ (0x7F808000#32).toNat % 2 ^ 23 ≠ 0 ∧
      (0x7F808000#32).toNat / 2 ^ 16 % 2 ^ 7 = 0 ∧ 1 ≤ (0x7F808000#32).toNat % 2 ^ 16 ∧
      (0x7F808000#32).toNat % 2 ^ 16 ≤ 0x8000 := by decide
theorem witness_nan_d :
    (0xFFFF8001#32).toNat / 2 ^ 23 % 2 ^ 8 = 0xFF ∧ (0xFFFF8001#32).toNat % 2 ^ 23 ≠ 0 ∧
      (0xFFFF8001#32).toNat / 2 ^ 16 % 2 ^ 7 = 0x7F ∧ 0x8001 ≤ (0xFFFF8001#32).toNat % 2 ^ 16 := by decide
theorem witness_small_inputs :
    (0x80008000#32).toNat % 2 ^ 31 ≤ 0x00008000 ∧ 0x00008001 ≤ (0x80008001#32).toNat % 2 ^ 31 ∧
      (0x00018000#32).toNat % 2 ^ 31 ≤ 0x00018000 ∧ (0x007F8000#32).toNat % 2 ^ 31 ≤ 0x007F8000 ∧
      0x007F8001 ≤ (0x007F8001#32).toNat % 2 ^ 31 ∧ (0x807FFFFF#32).toNat % 2 ^ 31 ≤ 0x007FFFFF := by decide
theorem witness_case_table_no_carry : 0 = (0x3F808000#32).toNat / 2 ^ 31 ∧ (0x3F808000#32).toNat % 2 ^ 16 ≤ 0x8000 := by decide
theorem witness_case_table_mantissa :
    0x8001 ≤ (0x007E8001#32).toNat % 2 ^ 16 ∧ (0x007E8001#32).toNat / 2 ^ 16 % 2 ^ 7 ≠ 0x7F := by decide
theorem witness_case_table_exponent :
    0x8001 ≤ (0x7EFF8001#32).toNat % 2 ^ 16 ∧ (0x7EFF8001#32).toNat / 2 ^ 16 % 2 ^ 7 = 0x7F ∧
      (0x7EFF8001#32).toNat / 2 ^ 23 % 2 ^ 8 ≤ 253 := by decide
theorem witness_case_table_overflow :
    0x8001 ≤ (0x7F7F8001#32).toNat % 2 ^ 16 ∧ (0x7F7F8001#32).toNat / 2 ^ 16 % 2 ^ 7 = 0x7F ∧
      (0x7F7F8001#32).toNat / 2 ^ 23 % 2 ^ 8 = 254 := by decide
theorem witness_case_table_sign :
    0x8001 ≤ (0x7FFF8001#32).toNat % 2 ^ 16 ∧ (0x7FFF8001#32).toNat / 2 ^ 16 % 2 ^ 7 = 0x7F ∧
      (0x7FFF8001#32).toNat / 2 ^ 23 % 2 ^ 8 = 255 := by decide
theorem witness_widen_equal : widen 0x7F81 = widen 0x7F81 := rfl
theorem witness_f32_classes :
    f32ClassOf 0xFF800000 = .infinity ∧ f32ClassOf 0x80000000 = .zero ∧ isNan (narrow 0x7FC00000) = true := by decide
theorem witness_exponent_subtracts :
    (0x0001#16).toNat % 2 ^ 15 ≠ 0 ∧ (0x0001#16).toNat / 2 ^ 7 % 2 ^ 8 ≠ 0xFF ∧
      (0xFF7F#16).toNat % 2 ^ 15 ≠ 0 ∧ (0xFF7F#16).toNat / 2 ^ 7 % 2 ^ 8 ≠ 0xFF := by decide
theorem witness_round_error :
    (ports 8 0xFFFFFFFF).op = 0x8 ∧ (ports 8 0xFFFFFFFF).a.toNat % 2 ^ 3 = 7 ∧ (ports 0 0x3F000000).op = 0x0 ∧
      (ports 0 0x3F000000).a = 0x3F000000 := by decide
theorem witness_run :
    runRequests [0x03F800000, 0x900000000] .reset =
      .next ({ op := 9, a := 0, y := 0, ill := true, refused := true }, [⟨0x3F80, false⟩, ⟨0, true⟩]) := by rfl
theorem witness_run_permuted :
    [0x03F800000#36, 0x900000000#36].Perm [0x900000000#36, 0x03F800000#36] ∧
      runRequests [0x900000000, 0x03F800000] .reset =
        .next ({ op := 0, a := 0x3F800000, y := 0x3F80, ill := false, refused := true }, [⟨0, true⟩, ⟨0x3F80, false⟩]) :=
  ⟨.swap _ _ _, rfl⟩
theorem witness_clean_run_starts : NoRefusal State.reset := by decide
theorem witness_settled :
    Inv { op := 0x9, a := 5, y := 0, ill := true, refused := true } ∧
      step { op := 0x9, a := 5, y := 0, ill := true, refused := true } =
        .next { op := 0x9, a := 5, y := 0, ill := true, refused := true } := ⟨by decide, rfl⟩
theorem witness_settled_defined : Inv { op := 0x8, a := 7, y := 0x3F00, ill := false, refused := false } := by decide
theorem witness_host_running : (HostState.start .reset).running = true := by decide
theorem witness_straight_script :
    scriptWellFormed [.send (some "n") .sign (.literal 0xFF80), .assertEq "n" 1, .raw "r" 0x900000000] = true ∧
      ∀ n v, Line.ifEq n v ∉ [Line.send (some "n") .sign (.literal 0xFF80), .assertEq "n" 1, .raw "r" 0x900000000] :=
  ⟨by decide, fun _ _ => by simp⟩

/-- A host in a branch that runs, with `n` bound to a response. -/
def hostWith (y : BitVec 32) : HostState := { HostState.start .reset with names := [("n", y)] }

theorem witness_roundtrip_of_name :
    operandValue 0x0 (.name "n") (hostWith 0x3F808001).names = .ok 0x3F808001 ∧ (hostWith 0x3F808001).running = true := by decide
theorem witness_roundtrip_not_run :
    operandValue 0x0 (.literal 5) (hostWith 0).names = .ok 5 ∧
      HostState.running { hostWith 0 with nest := [.running, .waiting] } = false := by decide
theorem witness_if :
    (hostWith 0x7F80).running = true ∧ lookupName "n" (hostWith 0x7F80).names = .ok 0x7F80 ∧
      linesWellFormed [.send (some "k") .limit (.limitName .infinity), .assertEq "k" 0x7F80] [] [] = true ∧
      linesWellFormed [.ifEq "n" 0, .send none .sign (.name "n"), .endLine] ["n"] [] = true := by decide
theorem witness_branch_not_taken :
    HostState.running { hostWith 0 with nest := [.skipped] } = false ∧
      linesWellFormed [.ifEq "m" 0, .elseLine, .raw "r" 0x900000000, .endLine] ["m"] [] = true := by decide
theorem test_if_without_else_not_taken :
    runScript [.ifEq "n" 1, .raw "r" 0x900000000, .endLine] (hostWith 0) = .ok (hostWith 0) := by decide -- log entry 11
theorem witness_script_stops_at_unbound :
    scriptWellFormed [.raw "n" 0, .ifEq "n" 1, .raw "k" 0, .endLine, .assertEq "k" 0] = true ∧
      runScript [.raw "n" 0, .ifEq "n" 1, .raw "k" 0, .endLine, .assertEq "k" 0] (.start .reset) = .error (.unboundName "k") := by
  decide

end Sys2Proof.Tests
end

section
/-! SUPPORT. Request words: where an instruction's operand sits in its word, that the decoder reads an encoded instruction back,
and that a table's word of 36 bits or more is the word itself (spec/30_encoding.md R36, R38, R40). -/

namespace Sys2Proof.Proofs

open Sys2Proof.Laws

@[simp] theorem bf16Operand_append (u : BitVec 16) (h : BF16) : bf16Operand (u ++ h) = h := by
  apply BitVec.eq_of_toNat_eq
  have := h.isLt
  rw [bf16Operand_toNat, append_toNat]
  omega

@[simp] theorem bf16Ignored_append (u : BitVec 16) (h : BF16) : bf16Ignored (u ++ h) = u := by
  apply BitVec.eq_of_toNat_eq
  have := h.isLt
  rw [bf16Ignored_toNat, append_toNat]
  omega

@[simp] theorem indexOperand_append (u : BitVec 29) (i : RomIndex) : indexOperand (u ++ i) = i := by
  apply BitVec.eq_of_toNat_eq
  have := i.isLt
  rw [indexOperand_toNat, append_toNat]
  omega

@[simp] theorem indexIgnored_append (u : BitVec 29) (i : RomIndex) : indexIgnored (u ++ i) = u := by
  apply BitVec.eq_of_toNat_eq
  have := i.isLt
  rw [indexIgnored_toNat, append_toNat]
  omega

/-- The decoder reads the word of an instruction back, with its ignored bits (spec/30_encoding.md R38, R40). -/
@[simp] theorem decode_encode (i : Instr) : decode (encode i) = .ok i := by
  cases i <;> simp [decode, encode]

/-- A word loses no bit in a table whose words have at least the 36 bits of a request. -/
theorem tableWord_toNat {nbits : Nat} (hn : 36 ≤ nbits) (w : Request) : tableWord nbits w.toNat = w := by
  have hw : w.toNat < 2 ^ nbits := w.isLt.trans_le (Nat.pow_le_pow_right (by decide) hn)
  rw [tableWord, Nat.mod_eq_of_lt hw, BitVec.ofNat_toNat, BitVec.setWidth_eq]

end Sys2Proof.Proofs
end

section
/-! SUPPORT. What a step does, in terms of the response function `F` of spec/30_encoding.md R45: the decoder and `exec` agree
with `F`, so a step puts `F(op, a)` on the outputs, and the state after it meets the invariant. -/

namespace Sys2Proof.Proofs

open Machine Sys2Proof.Laws

@[simp] theorem requestWord_present (w : Request) (s : State) : requestWord (present w s) = w :=
  packRequest_fields w

@[simp] theorem respondWord_requestWord (s : State) : respondWord (requestWord s) = respond s.op s.a := by
  simp [respondWord, requestWord]

theorem step_of_decode_ok {s : State} {i : Instr} (h : decode (requestWord s) = .ok i) : step s = exec i s := by
  simp [step, h]

/-- A word that decodes: its instruction's meaning answers `F` of the word, with `ill = 0` (spec/30_encoding.md R45). -/
theorem exec_of_decode_ok {w : Request} {i : Instr} (h : decode w = .ok i) (s : State) :
    exec i s = answer (respondWord w).y s ∧ (respondWord w).ill = false := by
  unfold decode at h
  split at h <;> cases h
  all_goals
    rename_i hop -- the code, which selects the row of `F` as it selected the instruction
    simp only [respondWord, respond, hop]
    exact ⟨rfl, rfl⟩

/-- A word that does not decode has the reserved response (spec/30_encoding.md R41). -/
theorem respondWord_of_decode_error {w : Request} {e : DecodeError} (h : decode w = .error e) :
    respondWord w = ⟨0, true⟩ := by
  unfold decode at h
  split at h <;> cases h
  -- the code is none of the nine, so `F` falls through to its last row
  simp_all [respondWord, respond]

/-- A step puts `F(op, a)` on the outputs, keeps the inputs and marks a response with `ill = 1`. -/
theorem step_eq_respond (s : State) :
    step s = .next { s with
      y := (respond s.op s.a).y
      ill := (respond s.op s.a).ill
      refused := s.refused || (respond s.op s.a).ill } := by
  unfold step
  split
  next i hi =>
    obtain ⟨hexec, hill⟩ := exec_of_decode_ok hi s
    rw [respondWord_requestWord] at hexec hill
    simp [hexec, hill, answer]
  next hr =>
    have hF := respondWord_of_decode_error hr
    rw [respondWord_requestWord] at hF
    simp [hF, answerReserved]

/-- All that a step can do. -/
theorem step_next_iff (s t : State) :
    step s = .next t ↔ t = { s with
      y := (respond s.op s.a).y
      ill := (respond s.op s.a).ill
      refused := s.refused || (respond s.op s.a).ill } := by
  rw [step_eq_respond, Host.Outcome.next.injEq, eq_comm]

/-- The state after a step meets the invariant, whatever the state before it: the block is stateless
(spec/10_state.md R10, R17). -/
theorem inv_of_step {s t : State} (h : step s = .next t) : Inv t := by
  obtain rfl := (step_next_iff s t).mp h
  exact ⟨rfl, fun hill => Bool.or_eq_true_iff.mpr (Or.inr hill)⟩

/-- A state that meets the invariant is a fixed point of the step. -/
theorem step_of_inv {s : State} (h : Inv s) : step s = .next s := by
  obtain ⟨hsettled, hmarked⟩ := h
  have hy : s.y = (respond s.op s.a).y := congrArg Response.y hsettled
  have hill : s.ill = (respond s.op s.a).ill := congrArg Response.ill hsettled
  have hrefused : (s.refused || s.ill) = s.refused := by simpa using hmarked
  rw [step_eq_respond, ← hy, ← hill, hrefused]

end Sys2Proof.Proofs
end

section
/-! PROOFS. The statements about the ports and the step (spec/10_state.md). -/

namespace Sys2Proof.Proofs

open Machine Sys2Proof.Laws

/-- Settles O42: a step puts `F` of the inputs on the outputs and marks `ill`. The invariant of the state before is not needed,
as the block keeps nothing. -/
theorem stepKeepsTheOutputsSettled : Obligations.StepKeepsTheOutputsSettled :=
  fun _ _ _ h => inv_of_step h

/-- Settles O6: a table's word is the encoded word, and the decoder reads its instruction back from the ports. -/
theorem placedWordIsRunByTheNextStep : Obligations.PlacedWordIsRunByTheNextStep := by
  intro s i nbits hn
  have hword : tableWord nbits (encode i).toNat = encode i := tableWord_toNat hn _
  constructor
  · simp [decodeTableWord, hword]
  · rw [State.withFetchWord, hword]
    exact step_of_decode_ok (by simp)

/-- Settles O19: both responses are `F` of the one request. -/
theorem sameRequestGivesSameResponse : Obligations.SameRequestGivesSameResponse := by
  intro s s' hop ha
  refine ⟨_, _, step_eq_respond s, step_eq_respond s', ?_, ?_⟩
  · simp [hop, ha]
  · simp [hop, ha]

/-- Settles O20: each meaning is an `answer`, which writes `y` and clears `ill`. -/
theorem operationsChangeOnlyTheOutputs : Obligations.OperationsChangeOnlyTheOutputs := by
  intro i s t h
  obtain ⟨y, hy⟩ := exec_answers i s
  obtain rfl := (answer_next_iff y s t).mp (hy ▸ h)
  exact ⟨rfl, rfl, rfl, rfl⟩

/-- Settles O44: a state that meets the invariant is a fixed point of the step, and every step ends in one. -/
theorem heldRequestKeepsItsResponse : Obligations.HeldRequestKeepsItsResponse :=
  ⟨fun _ => step_of_inv, fun _ _ h => step_of_inv (inv_of_step h)⟩

end Sys2Proof.Proofs
end

section
/-! SUPPORT. Runs and the host's lines in terms of `F`: each request of a run is answered with its own `F`, whatever the state
it meets (spec/10_state.md R10; spec/70_reset_and_hazards.md R97), and a request line that runs sends its words in order. -/

namespace Sys2Proof.Proofs

open Machine Sys2Proof.Laws

@[simp] theorem respondWord_packRequest (op : OpCode) (a : BitVec 32) : respondWord (packRequest op a) = respond op a := by
  simp [respondWord]

/-- One request of a run: it is answered with its `F`, and a response with `ill = 1` is marked. -/
theorem ask_answers (w : Request) (s : State) :
    ∃ t, ask w s = .next t ∧ responseOf t = respondWord w ∧ t.refused = (s.refused || (respondWord w).ill) :=
  ⟨_, step_eq_respond (present w s), rfl, rfl⟩

/-- A run of one request more: the first answer, then the run from the state after it. -/
theorem runRequests_cons {w : Request} {ws : List Request} {s s' t : State} {rs : List Response}
    (hfirst : ask w s = .next s') (hrest : runRequests ws s' = .next (t, rs)) :
    runRequests (w :: ws) s = .next (t, responseOf s' :: rs) := by
  simp [runRequests, hfirst, hrest]

/-- A run completes with the list of `F` of its requests, and marks those with `ill = 1`. -/
theorem runRequests_answers (ws : List Request) (s : State) :
    ∃ t, runRequests ws s = .next (t, ws.map respondWord) ∧
      t.refused = (s.refused || ws.any fun w => (respondWord w).ill) := by
  induction ws generalizing s with
  | nil => exact ⟨s, rfl, by simp⟩
  | cons w ws ih =>
    obtain ⟨s', hask, hrsp, hmark⟩ := ask_answers w s
    obtain ⟨t, hrun, hmarks⟩ := ih s'
    refine ⟨t, ?_, ?_⟩
    · rw [runRequests_cons hask hrun, hrsp, List.map_cons]
    · rw [hmarks, hmark, List.any_cons, Bool.or_assoc]

/-- The responses of a run are determined by its requests. -/
theorem responses_of_run {ws : List Request} {s t : State} {rs : List Response}
    (h : runRequests ws s = .next (t, rs)) : rs = ws.map respondWord := by
  obtain ⟨t', hrun, -⟩ := runRequests_answers ws s
  rw [h] at hrun
  injection hrun with hpair
  exact congrArg Prod.snd hpair

/-- The state after a request shows its `F`. -/
theorem responseOf_of_ask {w : Request} {s t : State} (h : ask w s = .next t) : responseOf t = respondWord w := by
  obtain rfl := (step_next_iff (present w s) t).mp h
  rfl

/-- Sending a request word completes, and the response kept is its `F`. -/
theorem sendWord_responses (b : Option String) (w : Request) (h : HostState) :
    ∃ h', sendWord b w h = .ok h' ∧ h'.responses = respondWord w :: h.responses := by
  obtain ⟨t, hask, hsend⟩ := sendWord_ok b w h
  exact ⟨_, hsend, congrArg (· :: h.responses) (responseOf_of_ask hask)⟩

/-- A request line in a branch that runs sends its expansion. -/
theorem runLine_send_of_running (b : Option String) (m : Mnemonic) (o : Operand) {h : HostState}
    (hr : h.running = true) : runLine (.send b m o) h = sendAll (expandSend b m o) h := by
  simp [runLine, hr]

/-- An expansion of one line, with an operand that has a value, sends one word. -/
theorem sendAll_singleton {c : CoreSend} {h : HostState} {a : BitVec 32}
    (ha : operandValue c.op c.operand h.names = .ok a) :
    sendAll [c] h = sendWord c.bind (packRequest c.op a) h := by
  simp only [sendAll, ha]
  cases sendWord c.bind (packRequest c.op a) h <;> rfl

end Sys2Proof.Proofs
end

section
/-! SUPPORT. LIMIT with the name of a constant: the name's index reaches the ROM unchanged (spec/20_memory.md R24). -/

namespace Sys2Proof.Proofs

open Machine Sys2Proof.Laws

@[simp] theorem indexOperand_zext32 (i : RomIndex) : indexOperand (zext32 i) = i := by
  apply BitVec.eq_of_toNat_eq
  rw [indexOperand_toNat, zext32_toNat (by decide)]
  exact Nat.mod_eq_of_lt i.isLt

/-- The row of `F` for LIMIT (spec/42_limits.md R72). -/
theorem respond_limit (a : BitVec 32) : respond 0x8#4 a = ⟨zext32 (limit (indexOperand a)), false⟩ := rfl

/-- A LIMIT line with a name sends one word, the index of the name zero-extended. -/
theorem runLine_limitName (b : Option String) (n : LimitName) {h : HostState} (hr : h.running = true) :
    runLine (.send b .limit (.limitName n)) h =
      sendWord b (packRequest 0x8#4 (zext32 (limitIndex n))) h := by
  rw [runLine_send_of_running b .limit (.limitName n) hr]
  exact sendAll_singleton rfl

end Sys2Proof.Proofs
end

section
/-! PROOFS. The statements about runs and the limits ROM (spec/20_memory.md). -/

namespace Sys2Proof.Proofs

open Machine Sys2Proof.Laws

/-- Settles O39: by induction on the requests, as each is answered with its `F` from whatever state the run has reached. -/
theorem runAnswersEachRequestAlone : Obligations.RunAnswersEachRequestAlone :=
  runRequests_answers

/-- Settles O40: in both runs a request is paired with its own `F`, so permuting the requests permutes the pairs. -/
theorem permutedRunsGetThePermutedResponses : Obligations.PermutedRunsGetThePermutedResponses := by
  intro ws ws' s s' t t' rs rs' hperm hrun hrun'
  obtain rfl := responses_of_run hrun
  obtain rfl := responses_of_run hrun'
  rw [← List.map_prod_left_eq_zip, ← List.map_prod_left_eq_zip]
  exact hperm.map _

/-- Settles O47: the line sends the name's index, the response is `F` of it, and the ROM is read at each of the eight. -/
theorem limitNameLineReadsItsConstant : Obligations.LimitNameLineReadsItsConstant := by
  intro b n h hr
  obtain ⟨h', hsend, hresp⟩ := sendWord_responses b (packRequest 0x8#4 (zext32 (limitIndex n))) h
  refine ⟨h', (runLine_limitName b n hr).trans hsend, ?_⟩
  rw [hresp, respondWord_packRequest, respond_limit, indexOperand_zext32]
  cases n <;> rfl

end Sys2Proof.Proofs
end

section
/-! SUPPORT. The decoder as the inverse of the encoder, and the codes it refuses (spec/30_encoding.md R36, R38, R40, R41). -/

namespace Sys2Proof.Proofs

open Sys2Proof.Laws

@[simp] theorem bf16Ignored_append_bf16Operand (a : BitVec 32) : bf16Ignored a ++ bf16Operand a = a := by
  apply BitVec.eq_of_toNat_eq
  rw [append_toNat, bf16Ignored_toNat, bf16Operand_toNat]
  omega

@[simp] theorem indexIgnored_append_indexOperand (a : BitVec 32) : indexIgnored a ++ indexOperand a = a := by
  apply BitVec.eq_of_toNat_eq
  rw [append_toNat, indexIgnored_toNat, indexOperand_toNat]
  omega

/-- The encoder writes back each field the decoder read, ignored bits included. -/
theorem encode_of_decode_ok {w : Request} {i : Instr} (h : decode w = .ok i) : encode i = w := by
  unfold decode at h
  split at h <;> cases h
  all_goals
    rename_i hop -- the code in the word, which is the one the encoder writes
    simp [encode, ← hop]

/-- All that the decoder can do: it accepts the nine codes, and refuses every other by its number. -/
theorem decode_cases (w : Request) :
    ((∃ i, decode w = .ok i) ∧ (opOf w).toNat < 9) ∨
    (decode w = .error (.reservedOp (opOf w)) ∧ 9 ≤ (opOf w).toNat) := by
  unfold decode
  split
  case h_10 => -- the code is none of the nine
    refine Or.inr ⟨rfl, ?_⟩
    simp only [imp_false, ← BitVec.toNat_inj, BitVec.toNat_ofNat] at *
    omega
  all_goals
    rename_i hop
    exact Or.inl ⟨⟨_, rfl⟩, by simp [hop]⟩

end Sys2Proof.Proofs
end

section
/-! SUPPORT. The rows of the response function `F` (spec/30_encoding.md R39, R45): its `ill`, the bits of the operand each row
reads, and the width of each row's result. -/

namespace Sys2Proof.Proofs

open Machine Sys2Proof.Laws

theorem respond_of_reserved {op : OpCode} (h : 9 ≤ op.toNat) (a : BitVec 32) : respond op a = ⟨0, true⟩ := by
  obtain ⟨-, hlt⟩ | ⟨hdec, -⟩ := decode_cases (packRequest op a)
  · rw [opOf_packRequest] at hlt
    omega
  · simpa using respondWord_of_decode_error hdec

theorem respond_ill_of_defined {op : OpCode} (h : op.toNat < 9) (a : BitVec 32) : (respond op a).ill = false := by
  obtain ⟨⟨i, hdec⟩, -⟩ | ⟨-, hle⟩ := decode_cases (packRequest op a)
  · simpa using (exec_of_decode_ok hdec State.reset).2
  · rw [opOf_packRequest] at hle
    omega

/-- Codes 1 to 7 read `a[15:0]` only (spec/30_encoding.md R38). -/
theorem respond_congr_bf16Operand {op : OpCode} (hlo : 1 ≤ op.toNat) (hhi : op.toNat ≤ 7) {a a' : BitVec 32}
    (h : bf16Operand a = bf16Operand a') : respond op a = respond op a' := by
  have h0 : op ≠ 0x0#4 := by rintro rfl; simp at hlo
  have h8 : op ≠ 0x8#4 := by rintro rfl; simp at hhi
  simp [respond, h, h0, h8]

theorem bf16Operand_eq_of_mod {a a' : BitVec 32} (h : a.toNat % 2 ^ 16 = a'.toNat % 2 ^ 16) :
    bf16Operand a = bf16Operand a' :=
  BitVec.eq_of_toNat_eq (by rw [bf16Operand_toNat, bf16Operand_toNat, h])

theorem indexOperand_eq_of_mod {a a' : BitVec 32} (h : a.toNat % 2 ^ 3 = a'.toNat % 2 ^ 3) :
    indexOperand a = indexOperand a' :=
  BitVec.eq_of_toNat_eq (by rw [indexOperand_toNat, indexOperand_toNat, h])

/-- The class of a pattern in terms of its fields, as numbers (spec/30_encoding.md R35). -/
theorem classOf_eq (h : BF16) :
    classOf h = if h.toNat / 2 ^ 7 % 2 ^ 8 = 0 then (if h.toNat % 2 ^ 7 = 0 then .zero else .subnormal)
      else if h.toNat / 2 ^ 7 % 2 ^ 8 = 255 then (if h.toNat % 2 ^ 7 = 0 then .infinity else .nan) else .normal := by
  have hman : (manField h == 0#7) = decide (h.toNat % 2 ^ 7 = 0) := by
    rw [← manField_toNat, Bool.beq_eq_decide_eq, decide_eq_decide, ← BitVec.toNat_inj]
    rfl
  rw [classOf, classOfFields_eq, expField_toNat, hman]
  simp only [decide_eq_true_eq]

/-- A result of `n` bits has zeros above them. -/
theorem zext32_toNat_lt {n : Nat} (hn : n ≤ 32) (v : BitVec n) : (zext32 v).toNat < 2 ^ n :=
  (zext32_toNat hn v).trans_lt v.isLt

/-- The rows of codes 2 to 5 are flags (spec/41_classify.md R61 to R64). -/
theorem respond_y_lt_two {op : OpCode} (hlo : 2 ≤ op.toNat) (hhi : op.toNat ≤ 5) (a : BitVec 32) :
    (respond op a).y.toNat < 2 := by
  have hop : op = 2#4 ∨ op = 3#4 ∨ op = 4#4 ∨ op = 5#4 := by bv_omega
  obtain rfl | rfl | rfl | rfl := hop <;> exact zext32_toNat_lt (by decide) _

end Sys2Proof.Proofs
end

section
/-! SUPPORT. A ROUNDTRIP line: what it sends and the names it binds (spec/30_encoding.md R44), and when the pattern comes back
(spec/40_convert.md R58). -/

namespace Sys2Proof.Proofs

open Machine Sys2Proof.Laws

/-- NARROW keeps the upper half of a pattern with a zero lower half, and WIDEN gives no other pattern. -/
theorem widen_narrow_eq_iff (x : F32) : widen (narrow x) = x ↔ x.toNat % 2 ^ 16 = 0 := by
  have := x.isLt
  rw [← BitVec.toNat_inj, widen_toNat, narrow_toNat]
  omega

/-- The response to a narrowing, sent as an operand, is read back as the 16 bits it holds. -/
@[simp] theorem bf16Operand_zext32 (h : BF16) : bf16Operand (zext32 h) = h := by
  apply BitVec.eq_of_toNat_eq
  rw [bf16Operand_toNat, zext32_toNat (by decide)]
  exact Nat.mod_eq_of_lt h.isLt

/-- The row of `F` for NARROW (spec/40_convert.md R46). -/
theorem respond_narrow (a : BitVec 32) : respond 0x0#4 a = ⟨zext32 (narrow a), false⟩ := rfl

/-- The row of `F` for WIDEN (spec/40_convert.md R56). -/
theorem respond_widen (a : BitVec 32) : respond 0x1#4 a = ⟨widen (bf16Operand a), false⟩ := rfl

/-- All that sending a word does to the host's own variables. -/
theorem sendWord_answers (b : Option String) (w : Request) (h : HostState) :
    ∃ h', sendWord b w h = .ok h' ∧ h'.responses = respondWord w :: h.responses ∧
      h'.names = bindName b (respondWord w).y h.names ∧ h'.nest = h.nest := by
  obtain ⟨t, hask, hsend⟩ := sendWord_ok b w h
  have hrsp := responseOf_of_ask hask
  exact ⟨_, hsend, congrArg (· :: h.responses) hrsp, by rw [← hrsp]; rfl, rfl⟩

/-- The first line of an expansion is sent, and the others from the state after it. -/
theorem sendAll_cons {c : CoreSend} {cs : List CoreSend} {h h' : HostState} {a : BitVec 32}
    (ha : operandValue c.op c.operand h.names = .ok a)
    (hsend : sendWord c.bind (packRequest c.op a) h = .ok h') : sendAll (c :: cs) h = sendAll cs h' := by
  simp [sendAll, ha, hsend]

/-- The two lines of a ROUNDTRIP: NARROW of the operand under the name `t`, then WIDEN of `t`. -/
theorem sendAll_roundtrip (b : Option String) {o : Operand} {x : F32} {h : HostState}
    (hx : operandValue 0x0#4 o h.names = .ok x) :
    ∃ h', sendAll (expandSend b .roundtrip o) h = .ok h' ∧
      h'.responses = ⟨widen (narrow x), false⟩ :: ⟨zext32 (narrow x), false⟩ :: h.responses ∧
      h'.names = bindName b (widen (narrow x)) (("t", zext32 (narrow x)) :: h.names) := by
  obtain ⟨h₁, hsend₁, hresp₁, hnames₁, -⟩ := sendWord_answers (some "t") (packRequest 0x0#4 x) h
  rw [respondWord_packRequest, respond_narrow] at hresp₁ hnames₁
  have ht : operandValue 0x1#4 (.name "t") h₁.names = .ok (zext32 (narrow x)) := by
    simp [operandValue, lookupName, bindName, hnames₁]
  obtain ⟨h₂, hsend₂, hresp₂, hnames₂, -⟩ := sendWord_answers b (packRequest 0x1#4 (zext32 (narrow x))) h₁
  rw [respondWord_packRequest, respond_widen, bf16Operand_zext32] at hresp₂ hnames₂
  refine ⟨h₂, ?_, ?_, ?_⟩
  · calc sendAll (expandSend b .roundtrip o) h
        = sendAll [⟨b, 0x1#4, .name "t"⟩] h₁ := sendAll_cons (c := ⟨some "t", 0x0#4, o⟩) hx hsend₁
      _ = .ok h₂ := (sendAll_singleton (c := ⟨b, 0x1#4, .name "t"⟩) ht).trans hsend₂
  · rw [hresp₂, hresp₁]
  · rw [hnames₂, hnames₁]; rfl

end Sys2Proof.Proofs
end

section
/-! SUPPORT. The nesting of a script (spec/30_encoding.md R43). `Balanced d ls` is what a well-formed script keeps of its form
when the names are forgotten: read with `d` open `if`s, its lines close them all. Runs are then proved about by induction on it. -/

namespace Sys2Proof.Proofs

open Machine Sys2Proof.Laws

/-- A line that opens and closes no `if`, and has an operand its operation takes. -/
inductive Plain : Line → Prop where
  | send (b : Option String) {m : Mnemonic} {o : Operand} (hfits : ∀ n, o = .limitName n → m = .limit) :
      Plain (.send b m o)
  | raw (b : String) (w : Request) : Plain (.raw b w)
  | assertEq (n : String) (v : BitVec 32) : Plain (.assertEq n v)

/-- Lines that close every `if` they open, and the `d` that are open before them. -/
inductive Balanced : Nat → List Line → Prop where
  | nil : Balanced 0 []
  | plain {d : Nat} {l : Line} {ls : List Line} : Plain l → Balanced d ls → Balanced d (l :: ls)
  | ifEq {d : Nat} {ls : List Line} (n : String) (v : BitVec 32) : Balanced (d + 1) ls → Balanced d (.ifEq n v :: ls)
  | elseLine {d : Nat} {ls : List Line} : Balanced (d + 1) ls → Balanced (d + 1) (.elseLine :: ls)
  | endLine {d : Nat} {ls : List Line} : Balanced d ls → Balanced (d + 1) (.endLine :: ls)

/-- A well-formed script is balanced. -/
theorem balanced_of_linesWellFormed {ls : List Line} {bound : List String} {elses : List Bool}
    (h : linesWellFormed ls bound elses = true) : Balanced elses.length ls := by
  induction ls generalizing bound elses with
  | nil =>
    obtain rfl : elses = [] := by simpa [linesWellFormed] using h
    exact .nil
  | cons l ls ih =>
    cases l with
    | send b m o =>
      obtain ⟨hoperand, hrest⟩ := Bool.and_eq_true_iff.mp h
      refine .plain (.send b ?_) (ih hrest)
      rintro n rfl
      simpa [takesLimitName] using hoperand
    | raw b w => exact .plain (.raw b w) (ih h)
    | assertEq n v => exact .plain (.assertEq n v) (ih (Bool.and_eq_true_iff.mp h).2)
    | ifEq n v => exact .ifEq n v (ih (Bool.and_eq_true_iff.mp h).2)
    | elseLine =>
      match elses, h with
      | false :: _, h => exact .elseLine (ih h)
    | endLine =>
      match elses, h with
      | _ :: _, h => exact .endLine (ih h)

/-- The host state with other open `if`s. -/
def withNest (k : List Branch) (h : HostState) : HostState := { h with nest := k }

@[simp] theorem withNest_nest (k : List Branch) (h : HostState) : (withNest k h).nest = k := rfl
@[simp] theorem withNest_names (k : List Branch) (h : HostState) : (withNest k h).names = h.names := rfl
@[simp] theorem withNest_withNest (k k' : List Branch) (h : HostState) : withNest k (withNest k' h) = withNest k h := rfl
@[simp] theorem withNest_self (h : HostState) : withNest h.nest h = h := rfl

theorem withNest_running (k : List Branch) (h : HostState) : (withNest k h).running = k.all (· == .running) := rfl

theorem runScript_cons_ok {l : Line} {h h' : HostState} (hl : runLine l h = .ok h') (ls : List Line) :
    runScript (l :: ls) h = runScript ls h' := by
  simp [runScript, hl]

theorem runScript_cons_error {l : Line} {h : HostState} {e : ScriptError} (hl : runLine l h = .error e)
    (ls : List Line) : runScript (l :: ls) h = .error e := by
  simp [runScript, hl]

end Sys2Proof.Proofs
end

section
/-! SUPPORT. Lines in a branch that does not run: a plain line does nothing, and an `if` is skipped whole, because what it puts
on the nest is never the running branch (spec/30_encoding.md R43; log entry 11). -/

namespace Sys2Proof.Proofs

open Machine Sys2Proof.Laws

theorem runLine_plain_of_not_running {l : Line} (hl : Plain l) {h : HostState} (hr : h.running = false) :
    runLine l h = .ok h := by
  cases hl <;> simp [runLine, hr]

theorem runLine_ifEq_of_not_running (n : String) (v : BitVec 32) {h : HostState} (hr : h.running = false) :
    runLine (.ifEq n v) h = .ok (withNest (.skipped :: h.nest) h) := by
  simp [runLine, hr, withNest]

/-- Above a branch that does not run, nothing runs. -/
theorem not_running_append {base : List Branch} (hbase : base.all (· == .running) = false) (k : List Branch)
    (h : HostState) : (withNest (k ++ base) h).running = false := by
  rw [withNest_running, List.all_append, hbase, Bool.and_false]

/-- The lines close the `d` skipped `if`s that are open above the branch that does not run, and do nothing else. -/
theorem runScript_skips {d : Nat} {ls : List Line} (hls : Balanced d ls) {base : List Branch}
    (hbase : base.all (· == .running) = false) (h : HostState) :
    runScript ls (withNest (List.replicate d .skipped ++ base) h) = .ok (withNest base h) := by
  induction hls with
  | nil => rfl
  | plain hl _ ih =>
    rw [runScript_cons_ok (runLine_plain_of_not_running hl (not_running_append hbase _ h))]
    exact ih
  | ifEq n v _ ih =>
    rw [runScript_cons_ok (runLine_ifEq_of_not_running n v (not_running_append hbase _ h))]
    exact ih
  | elseLine _ ih => exact ih
  | endLine _ ih => exact ih

/-- Lines in a branch that does not run leave the host state as it is. -/
theorem runScript_of_not_running {ls : List Line} (hls : Balanced 0 ls) {h : HostState} (hr : h.running = false) :
    runScript ls h = .ok h :=
  runScript_skips hls hr h

end Sys2Proof.Proofs
end

section
/-! SUPPORT. The outcome of a line and of a script: it completes, or it meets a name that is not bound
(spec/30_encoding.md R43; log entry 11). -/

namespace Sys2Proof.Proofs

open Machine Sys2Proof.Laws

/-- The run completes with `k` as its open `if`s, or stops at an unbound name. -/
def EndsWithNest (k : List Branch) (r : Except ScriptError HostState) : Prop :=
  (∃ g, r = .ok g ∧ g.nest = k) ∨ ∃ n, r = .error (.unboundName n)

theorem endsWithNest_ok (h : HostState) : EndsWithNest h.nest (.ok h) := Or.inl ⟨h, rfl, rfl⟩

theorem lookupName_cases (n : String) (names : List (String × BitVec 32)) :
    (∃ v, lookupName n names = .ok v) ∨ lookupName n names = .error (.unboundName n) := by
  unfold lookupName
  split
  · exact Or.inl ⟨_, rfl⟩
  · exact Or.inr rfl

/-- An operand that fits its operation has a value, or is a name that is not bound. -/
theorem operandValue_cases {op : OpCode} {o : Operand} (hfits : ∀ n, o = .limitName n → op = 0x8#4)
    (names : List (String × BitVec 32)) :
    (∃ v, operandValue op o names = .ok v) ∨ ∃ n, operandValue op o names = .error (.unboundName n) := by
  cases o with
  | literal v => exact Or.inl ⟨v, rfl⟩
  | limitName n => exact Or.inl ⟨_, if_pos (hfits n rfl)⟩
  | name n => exact (lookupName_cases n names).imp_right fun h => ⟨n, h⟩

theorem sendAll_ends {cs : List CoreSend} (hfits : ∀ c ∈ cs, ∀ n, c.operand = .limitName n → c.op = 0x8#4)
    (h : HostState) : EndsWithNest h.nest (sendAll cs h) := by
  induction cs generalizing h with
  | nil => exact endsWithNest_ok h
  | cons c cs ih =>
    obtain ⟨hc, hcs⟩ := List.forall_mem_cons.mp hfits
    obtain ⟨a, ha⟩ | ⟨n, hn⟩ := operandValue_cases hc h.names
    · obtain ⟨h', hsend, -, -, hnest⟩ := sendWord_answers c.bind (packRequest c.op a) h
      rw [sendAll_cons ha hsend, ← hnest]
      exact ih hcs h'
    · exact Or.inr ⟨n, by simp [sendAll, hn]⟩

/-- The lines of an expansion keep the operand where it fits: the name of a constant stands with code 8 only. -/
theorem expandSend_fits (b : Option String) {m : Mnemonic} {o : Operand} (hfits : ∀ n, o = .limitName n → m = .limit) :
    ∀ c ∈ expandSend b m o, ∀ n, c.operand = .limitName n → c.op = 0x8#4 := by
  cases o with
  | limitName n =>
    obtain rfl := hfits n rfl
    simp [expandSend]
  | literal v => cases m <;> simp [expandSend]
  | name n => cases m <;> simp [expandSend]

theorem runLine_plain_ends {l : Line} (hl : Plain l) (h : HostState) : EndsWithNest h.nest (runLine l h) := by
  cases hr : h.running with
  | false =>
    rw [runLine_plain_of_not_running hl hr]
    exact endsWithNest_ok h
  | true =>
    cases hl with
    | send b hfits =>
      rw [runLine_send_of_running b _ _ hr]
      exact sendAll_ends (expandSend_fits b hfits) h
    | raw b w =>
      obtain ⟨h', hsend, -, -, hnest⟩ := sendWord_answers (some b) w h
      exact Or.inl ⟨h', by simp [runLine, hr, hsend], hnest⟩
    | assertEq n v =>
      obtain ⟨x, hx⟩ | hn := lookupName_cases n h.names
      · exact Or.inl ⟨{ h with assertFailed := h.assertFailed || x != v }, by simp [runLine, hr, hx], rfl⟩
      · exact Or.inr ⟨n, by simp [runLine, hr, hn]⟩

theorem runLine_ifEq_of_running {n : String} {x : BitVec 32} {h : HostState} (hr : h.running = true)
    (hx : lookupName n h.names = .ok x) (v : BitVec 32) :
    runLine (.ifEq n v) h = .ok (withNest ((if x = v then .running else .waiting) :: h.nest) h) := by
  simp [runLine, hr, hx, withNest]

/-- An `if` line opens one branch, whether or not it runs, or stops at an unbound name. -/
theorem runLine_ifEq_ends (n : String) (v : BitVec 32) (h : HostState) :
    ∃ b, EndsWithNest (b :: h.nest) (runLine (.ifEq n v) h) := by
  cases hr : h.running with
  | false => exact ⟨.skipped, Or.inl ⟨_, runLine_ifEq_of_not_running n v hr, rfl⟩⟩
  | true =>
    obtain ⟨x, hx⟩ | hn := lookupName_cases n h.names
    · exact ⟨if x = v then .running else .waiting, Or.inl ⟨_, runLine_ifEq_of_running hr hx v, rfl⟩⟩
    · exact ⟨.skipped, Or.inr ⟨n, by simp [runLine, hr, hn]⟩⟩

/-- An `else` line inside an `if` changes the branch of that `if` only, whatever is open around it. -/
theorem runLine_elseLine_ok (b : Branch) (h : HostState) :
    ∃ b', ∀ bs, runLine .elseLine (withNest (b :: bs) h) = .ok (withNest (b' :: bs) h) := by
  cases b
  · exact ⟨.waiting, fun _ => rfl⟩
  · exact ⟨.running, fun _ => rfl⟩
  · exact ⟨.skipped, fun _ => rfl⟩

/-- Balanced lines leave open what was open below the `if`s they close, or stop at an unbound name. -/
theorem runScript_ends {d : Nat} {ls : List Line} (hls : Balanced d ls) {k base : List Branch} (hk : k.length = d)
    (h : HostState) : EndsWithNest base (runScript ls (withNest (k ++ base) h)) := by
  induction hls generalizing k h with
  | nil =>
    obtain rfl := List.length_eq_zero_iff.mp hk
    exact endsWithNest_ok (withNest base h)
  | plain hl _ ih =>
    obtain ⟨g, hg, hnest⟩ | ⟨n, hn⟩ := runLine_plain_ends hl (withNest (k ++ base) h)
    · rw [runScript_cons_ok hg, ← withNest_self g, hnest]
      exact ih hk g
    · exact Or.inr ⟨n, runScript_cons_error hn _⟩
  | ifEq n v _ ih =>
    obtain ⟨b, ⟨g, hg, hnest⟩ | ⟨n, hn⟩⟩ := runLine_ifEq_ends n v (withNest (k ++ base) h)
    · rw [runScript_cons_ok hg, ← withNest_self g, hnest]
      exact ih (k := b :: k) (congrArg (· + 1) hk) g
    · exact Or.inr ⟨n, runScript_cons_error hn _⟩
  | elseLine _ ih =>
    obtain ⟨b, k, rfl⟩ := List.exists_cons_of_length_eq_add_one hk
    obtain ⟨b', hb'⟩ := runLine_elseLine_ok b h
    rw [List.cons_append, runScript_cons_ok (hb' (k ++ base))]
    exact ih (k := b' :: k) hk h
  | endLine _ ih =>
    obtain ⟨b, k, rfl⟩ := List.exists_cons_of_length_eq_add_one hk
    exact ih (Nat.succ.inj hk) h

end Sys2Proof.Proofs
end

section
/-! SUPPORT. A running branch does not show: with one more of them among the open `if`s, lines run as without it, and so
`if`, `else`, `end` run the chosen branch as if it alone stood there (spec/30_encoding.md R43). -/

namespace Sys2Proof.Proofs

open Machine Sys2Proof.Laws

theorem sendAll_withNest (cs : List CoreSend) (k : List Branch) (h : HostState) :
    sendAll cs (withNest k h) = (sendAll cs h).map (withNest k) := by
  rw [withNest, sendAll_nest]
  cases sendAll cs h <;> rfl

theorem sendWord_withNest (b : Option String) (w : Request) (k : List Branch) (h : HostState) :
    sendWord b w (withNest k h) = (sendWord b w h).map (withNest k) := by
  rw [withNest, sendWord_nest]
  cases sendWord b w h <;> rfl

/-- A plain line reads of the open `if`s only whether all of them run. -/
theorem runLine_plain_withNest {l : Line} (hl : Plain l) {k : List Branch} {h : HostState}
    (hk : (withNest k h).running = h.running) : runLine l (withNest k h) = (runLine l h).map (withNest k) := by
  cases hr : h.running with
  | false =>
    rw [runLine_plain_of_not_running hl hr, runLine_plain_of_not_running hl (hk.trans hr)]
    rfl
  | true =>
    cases hl with
    | send b hfits =>
      rw [runLine_send_of_running b _ _ hr, runLine_send_of_running b _ _ (hk.trans hr), sendAll_withNest]
    | raw b w => simp [runLine, hk, hr, sendWord_withNest]
    | assertEq n v =>
      obtain ⟨x, hx⟩ | hn := lookupName_cases n h.names
      · simp only [runLine, hk, hr, withNest_names, hx]
        rfl
      · simp only [runLine, hk, hr, withNest_names, hn]
        rfl

/-- An `if` line, too, reads of the open `if`s only whether all of them run, and opens the same branch on each nest. -/
theorem runLine_ifEq_withNest (n : String) (v : BitVec 32) (r : Bool) (h : HostState) :
    (∃ e, ∀ k, (withNest k h).running = r → runLine (.ifEq n v) (withNest k h) = .error e) ∨
    ∃ b, ∀ k, (withNest k h).running = r → runLine (.ifEq n v) (withNest k h) = .ok (withNest (b :: k) h) := by
  cases r with
  | false => exact Or.inr ⟨.skipped, fun k hk => runLine_ifEq_of_not_running n v hk⟩
  | true =>
    obtain ⟨x, hx⟩ | hn := lookupName_cases n h.names
    · exact Or.inr ⟨_, fun k hk => runLine_ifEq_of_running hk hx v⟩
    · exact Or.inl ⟨.unboundName n, fun k hk => by simp [runLine, hk, hn]⟩

theorem withNest_running_insert (k base : List Branch) (h : HostState) :
    (withNest (k ++ .running :: base) h).running = (withNest (k ++ base) h).running := by
  simp [withNest_running]

/-- One more running branch below the `if`s that the lines close is still there at the end, and changes nothing else. -/
theorem runScript_insert_running {d : Nat} {ls : List Line} (hls : Balanced d ls) {k base : List Branch}
    (hk : k.length = d) (h : HostState) :
    runScript ls (withNest (k ++ .running :: base) h) =
      (runScript ls (withNest (k ++ base) h)).map (withNest (.running :: base)) := by
  induction hls generalizing k h with
  | nil =>
    obtain rfl := List.length_eq_zero_iff.mp hk
    rfl
  | plain hl _ ih =>
    have hline := runLine_plain_withNest hl (h := withNest (k ++ base) h) (withNest_running_insert k base h)
    rw [withNest_withNest] at hline
    obtain ⟨g, hg, hnest⟩ | ⟨n, hn⟩ := runLine_plain_ends hl (withNest (k ++ base) h)
    · rw [hg] at hline
      rw [runScript_cons_ok hg, runScript_cons_ok hline, ih hk g, ← withNest_self g, hnest]
      rfl
    · rw [hn] at hline
      rw [runScript_cons_error hn, runScript_cons_error hline]
      rfl
  | ifEq n v _ ih =>
    obtain ⟨e, he⟩ | ⟨b, hb⟩ := runLine_ifEq_withNest n v (withNest (k ++ base) h).running h
    · rw [runScript_cons_error (he (k ++ base) rfl),
        runScript_cons_error (he (k ++ .running :: base) (withNest_running_insert k base h))]
      rfl
    · rw [runScript_cons_ok (hb (k ++ base) rfl),
        runScript_cons_ok (hb (k ++ .running :: base) (withNest_running_insert k base h))]
      exact ih (k := b :: k) (congrArg (· + 1) hk) h
  | elseLine _ ih =>
    obtain ⟨b, k, rfl⟩ := List.exists_cons_of_length_eq_add_one hk
    obtain ⟨b', hb'⟩ := runLine_elseLine_ok b h
    rw [List.cons_append, List.cons_append, runScript_cons_ok (hb' (k ++ base)),
      runScript_cons_ok (hb' (k ++ .running :: base))]
    exact ih (k := b' :: k) hk h
  | endLine _ ih =>
    obtain ⟨b, k, rfl⟩ := List.exists_cons_of_length_eq_add_one hk
    exact ih (Nat.succ.inj hk) h

/-- A balanced branch that runs, and the lines `rest` after it: the branch runs as if it stood alone. -/
theorem runScript_branch_running {ls : List Line} (hls : Balanced 0 ls) (rest : List Line) (h : HostState) :
    runScript (ls ++ rest) (withNest (.running :: h.nest) h) =
      (runScript ls h).bind fun g => runScript rest (withNest (.running :: g.nest) g) := by
  have hinsert : runScript ls (withNest (.running :: h.nest) h) =
      (runScript ls h).map (withNest (.running :: h.nest)) := runScript_insert_running hls (k := []) rfl h
  have hends : EndsWithNest h.nest (runScript ls h) := runScript_ends hls (k := []) rfl h
  rw [runScript_append, hinsert]
  obtain ⟨g, hg, hnest⟩ | ⟨n, hn⟩ := hends
  · rw [hg, ← hnest]; rfl
  · rw [hn]; rfl

/-- A balanced branch that does not run, and the lines `rest` after it: the branch does nothing. -/
theorem runScript_branch_waiting {ls : List Line} (hls : Balanced 0 ls) (rest : List Line) (h : HostState) :
    runScript (ls ++ rest) (withNest (.waiting :: h.nest) h) = runScript rest (withNest (.waiting :: h.nest) h) := by
  rw [runScript_append, runScript_of_not_running hls rfl]

theorem runScript_elseLine_of_running (rest : List Line) (h : HostState) :
    runScript (.elseLine :: rest) (withNest (.running :: h.nest) h) =
      runScript rest (withNest (.waiting :: h.nest) h) := rfl

theorem runScript_elseLine_of_waiting (rest : List Line) (h : HostState) :
    runScript (.elseLine :: rest) (withNest (.waiting :: h.nest) h) =
      runScript rest (withNest (.running :: h.nest) h) := rfl

theorem runScript_endLine (b : Branch) (h : HostState) :
    runScript [.endLine] (withNest (b :: h.nest) h) = .ok h := rfl

/-- A branch that runs, closed by `end`, is the branch alone. -/
theorem runScript_branch_running_endLine {ls : List Line} (hls : Balanced 0 ls) (h : HostState) :
    runScript (ls ++ [.endLine]) (withNest (.running :: h.nest) h) = runScript ls h := by
  rw [runScript_branch_running hls]
  cases runScript ls h with
  | ok g => exact runScript_endLine .running g
  | error e => rfl

/-- A branch that does not run, closed by `end`, is no line at all. -/
theorem runScript_branch_waiting_endLine {ls : List Line} (hls : Balanced 0 ls) (h : HostState) :
    runScript (ls ++ [.endLine]) (withNest (.waiting :: h.nest) h) = .ok h := by
  rw [runScript_branch_waiting hls, runScript_endLine]

/-- Where the test holds, the `else` branch does nothing. -/
theorem runScript_thenBranch {ts es : List Line} (hts : Balanced 0 ts) (hes : Balanced 0 es) (h : HostState) :
    runScript (ts ++ .elseLine :: es ++ [.endLine]) (withNest (.running :: h.nest) h) = runScript ts h := by
  rw [List.append_assoc, List.cons_append, runScript_branch_running hts]
  cases runScript ts h with
  | ok g => exact (runScript_elseLine_of_running _ g).trans (runScript_branch_waiting_endLine hes g)
  | error e => rfl

/-- Where the test fails, the first branch does nothing. -/
theorem runScript_elseBranch {ts es : List Line} (hts : Balanced 0 ts) (hes : Balanced 0 es) (h : HostState) :
    runScript (ts ++ .elseLine :: es ++ [.endLine]) (withNest (.waiting :: h.nest) h) = runScript es h := by
  rw [List.append_assoc, List.cons_append, runScript_branch_waiting hts, runScript_elseLine_of_waiting,
    runScript_branch_running_endLine hes]

end Sys2Proof.Proofs
end

section
/-! PROOFS. The statements about encoding (spec/30_encoding.md): request words, the fields of results and patterns, and the lines
of a script. -/

namespace Sys2Proof.Proofs

open Machine Sys2Proof.Laws

/-- Settles O1: the decoder selects by the code that the encoder writes, and reads the operand and the ignored bits back. -/
theorem decodeOfEncodeIsTheInstruction : Obligations.DecodeOfEncodeIsTheInstruction :=
  decode_encode

/-- Settles O2: an instruction keeps every bit of its word, so the encoder writes the word back. -/
theorem encodeOfDecodeIsTheWord : Obligations.EncodeOfDecodeIsTheWord :=
  fun _ _ => encode_of_decode_ok

/-- Settles O3: the decoder accepts or refuses by the code alone, which is bits 35 to 32 of the word. -/
theorem decoderRefusesExactlyReservedCodes : Obligations.DecoderRefusesExactlyReservedCodes := by
  intro w
  rw [← opOf_toNat]
  obtain ⟨⟨i, hi⟩, hlt⟩ | ⟨herr, hle⟩ := decode_cases w
  · simp [hi, hlt]
  · simp [herr, hle]

/-- Settles O16: the row of `F` for a reserved code is y = 0 with ill = 1, and every other row has ill = 0. -/
theorem reservedCodesAreAnsweredWithIll : Obligations.ReservedCodesAreAnsweredWithIll := by
  intro s
  constructor
  · intro hreserved
    simp [step_eq_respond, respond_of_reserved hreserved]
  · intro hdefined
    have hill := respond_ill_of_defined hdefined s.a
    exact ⟨_, step_eq_respond s, hill, by simp [hill], rfl, rfl⟩

/-- Settles O17: the decoder followed by `exec` agrees with `F` on every request. -/
theorem stepComputesTheResponseFunction : Obligations.StepComputesTheResponseFunction :=
  step_eq_respond

/-- Settles O18: both steps answer `F`, and no row of `F` reads an ignored bit. -/
theorem ignoredOperandBitsChangeNothing : Obligations.IgnoredOperandBitsChangeNothing := by
  intro s s' hop hread
  have hF : respond s.op s.a = respond s.op s'.a := by
    obtain ⟨hlo, hhi, ha⟩ | ⟨hlimit, ha⟩ | hreserved := hread
    · exact respond_congr_bf16Operand hlo hhi (bf16Operand_eq_of_mod ha)
    · obtain hlimit : s.op = 0x8#4 := BitVec.eq_of_toNat_eq hlimit
      rw [hlimit, respond_limit, respond_limit, indexOperand_eq_of_mod ha]
    · rw [respond_of_reserved hreserved, respond_of_reserved hreserved]
  refine ⟨_, _, step_eq_respond s, step_eq_respond s', ?_, ?_⟩
  · simp [← hop, hF]
  · simp [← hop, hF]

/-- Settles O21: the result is that of `F`, whose rows widen a value of the stated width, or append sixteen zeros. -/
theorem resultsAreZeroExtended : Obligations.ResultsAreZeroExtended := by
  intro s t hstep
  obtain rfl := (step_next_iff s t).mp hstep
  refine ⟨?_, ?_, fun ⟨hlo, hhi⟩ => respond_y_lt_two hlo hhi s.a, ?_⟩
  · rintro (hop | hop | hop) <;> rw [hop] <;> exact zext32_toNat_lt (by decide) _
  · intro hop
    rw [hop, respond_widen, widen_toNat]
    exact Nat.mul_mod_left _ _
  · intro hop
    rw [hop]
    exact zext32_toNat_lt (by decide) _

/-- Settles O34: the class is read off the two fields, and each class is one case of that reading. -/
theorem classesAreTheBitConditions : Obligations.ClassesAreTheBitConditions := by
  intro h
  rw [classOf_eq]
  split_ifs <;> simp only [true_iff, false_iff] <;> omega

/-- Settles O46: the two responses are `F` of NARROW and of WIDEN, and a line that is not run is skipped. -/
theorem roundtripLineSendsNarrowThenWiden : Obligations.RoundtripLineSendsNarrowThenWiden := by
  intro b o x h hx
  constructor
  · intro hr
    obtain ⟨h', hsend, hresp, hnames⟩ := sendAll_roundtrip b hx
    exact ⟨h', _, (runLine_send_of_running b .roundtrip o hr).trans hsend, hresp, hnames, rfl, widen_narrow_eq_iff x⟩
  · intro hr
    simp [runLine, hr]

/-- Settles O50: the `if` line opens a running or a waiting branch, and the two cases are those of its branches. -/
theorem ifRunsExactlyTheChosenBranch : Obligations.IfRunsExactlyTheChosenBranch := by
  intro n v x ts es bound bound' h hr hx hts hes
  have hts : Balanced 0 ts := balanced_of_linesWellFormed hts
  have hes : Balanced 0 es := balanced_of_linesWellFormed hes
  have hif := runLine_ifEq_of_running hr hx v
  simp only [List.cons_append, runScript_cons_ok hif]
  by_cases htest : x = v
  · simp only [htest, if_true]
    exact ⟨runScript_thenBranch hts hes h, runScript_branch_running_endLine hts h⟩
  · simp only [htest, if_false]
    exact ⟨runScript_elseBranch hts hes h, runScript_branch_waiting_endLine hts h⟩

/-- Settles O51: well-formed lines are balanced, and balanced lines in a branch that does not run are skipped. -/
theorem linesOfABranchNotTakenDoNothing : Obligations.LinesOfABranchNotTakenDoNothing :=
  fun _ _ _ hr hls => runScript_of_not_running (balanced_of_linesWellFormed hls) hr

/-- Settles O52: a well-formed script is balanced with no `if` open before it, so it ends with none open, or at a name. -/
theorem wellFormedScriptsStopOnlyAtUnboundNames : Obligations.WellFormedScriptsStopOnlyAtUnboundNames :=
  fun _ s hls => runScript_ends (balanced_of_linesWellFormed hls) (k := []) rfl (.start s)

/-- Settles O5: a step decodes the word on the ports and runs what it reads. -/
theorem stepRunsTheDecodedInstruction : Obligations.StepRunsTheDecodedInstruction :=
  fun _ _ h => step_of_decode_ok h

/-- Settles O45: each pseudo-operation has the expansion of its operation. -/
theorem aliasLinesRunTheirOperation : Obligations.AliasLinesRunTheirOperation :=
  fun _ _ _ => ⟨rfl, rfl, rfl⟩

end Sys2Proof.Proofs
end

section
/-! SUPPORT. NARROW on the parts of a pattern (spec/40_convert.md R46, R47): on the two halves, where the lower half decides the
carry, and on the sign and the magnitude, where the carry reaches the sign only from the largest magnitudes. -/

namespace Sys2Proof.Proofs

open Machine Sys2Proof.Laws

/-- All that NARROW answers (spec/40_convert.md R46). -/
theorem exec_narrow (x : F32) (s : State) :
    exec (.narrow x) s = .next { s with y := zext32 (narrow x), ill := false } := rfl

/-- All that WIDEN answers (spec/40_convert.md R56). -/
theorem exec_widen (u : BitVec 16) (h : BF16) (s : State) :
    exec (.widen u h) s = .next { s with y := widen h, ill := false } := rfl

/-- A lower half of at most 0x8000 carries nothing into the upper half. -/
theorem narrow_of_no_carry {x : F32} (hl : x.toNat % 2 ^ 16 ≤ 0x8000) : (narrow x).toNat = x.toNat / 2 ^ 16 := by
  have := x.isLt
  rw [narrow_toNat]
  omega

/-- A lower half of 0x8001 or more carries one into the upper half. -/
theorem narrow_of_carry {x : F32} (hl : 0x8001 ≤ x.toNat % 2 ^ 16) :
    (narrow x).toNat = (x.toNat / 2 ^ 16 + 1) % 2 ^ 16 := by
  rw [narrow_toNat]
  omega

/-- Below the magnitudes whose carry reaches the sign, the sign is kept and the magnitude is narrowed alone. -/
theorem narrow_of_magnitude {x : F32} (hm : x.toNat % 2 ^ 31 ≤ 0x7FFF8000) :
    (narrow x).toNat / 2 ^ 15 = x.toNat / 2 ^ 31 ∧
    (narrow x).toNat % 2 ^ 15 = (x.toNat % 2 ^ 31 + 0x7FFF) / 2 ^ 16 := by
  have := x.isLt
  rw [narrow_toNat]
  omega

/-- From there on the carry runs through the magnitude and inverts the sign (spec/40_convert.md R52, case (d)). -/
theorem narrow_of_wrapping_magnitude {x : F32} (hm : 0x7FFF8001 ≤ x.toNat % 2 ^ 31) :
    (narrow x).toNat = if 2 ^ 31 ≤ x.toNat then 0 else 0x8000 := by
  have := x.isLt
  rw [narrow_toNat]
  split_ifs <;> omega

/-- The result as a pattern, with the narrowed magnitude `k` under the sign of the input. -/
theorem narrow_eq_signed {x : F32} (k : Nat) (hm : x.toNat % 2 ^ 31 ≤ 0x7FFF8000)
    (hk : (x.toNat % 2 ^ 31 + 0x7FFF) / 2 ^ 16 = k) :
    narrow x = if 2 ^ 31 ≤ x.toNat then BitVec.ofNat 16 (0x8000 + k) else BitVec.ofNat 16 k := by
  have := x.isLt
  obtain ⟨hsign, hmag⟩ := narrow_of_magnitude hm
  apply BitVec.eq_of_toNat_eq
  split_ifs <;> rw [BitVec.toNat_ofNat] <;> omega

/-- NARROW keeps the sign of every magnitude whose carry does not reach it. -/
theorem isNeg_narrow_of_magnitude {x : F32} (hm : x.toNat % 2 ^ 31 ≤ 0x7FFF8000) : isNeg (narrow x) = f32Sign x := by
  obtain ⟨hsign, -⟩ := narrow_of_magnitude hm
  rw [isNeg, signField_eq, f32Sign_eq, decide_eq_decide]
  omega

theorem isNeg_narrow_of_wrapping_magnitude {x : F32} (hm : 0x7FFF8001 ≤ x.toNat % 2 ^ 31) :
    isNeg (narrow x) = !f32Sign x := by
  rw [isNeg, signField_eq, f32Sign_eq, ← decide_not, decide_eq_decide, narrow_of_wrapping_magnitude hm]
  split_ifs <;> omega

end Sys2Proof.Proofs
end

section
/-! SUPPORT. Patterns by their fields and by their class (spec/30_encoding.md R32, R33, R35). -/

namespace Sys2Proof.Proofs

open Machine Sys2Proof.Laws

/-- The upper half of an F32 is its sign, its exponent field and the top of its mantissa (spec/30_encoding.md R33). -/
theorem upperHalf_eq_fields (n : Nat) :
    n / 2 ^ 16 = n / 2 ^ 31 * 2 ^ 15 + n / 2 ^ 23 % 2 ^ 8 * 2 ^ 7 + n / 2 ^ 16 % 2 ^ 7 := by
  omega

/-- The class of a BF16 put together from its fields (spec/30_encoding.md R35). -/
theorem classOf_of_fields {h : BF16} {sg e t : Nat} (he : e ≤ 255) (ht : t ≤ 0x7F)
    (hfields : h.toNat = sg * 2 ^ 15 + e * 2 ^ 7 + t) :
    classOf h =
      if e = 0 then (if t = 0 then .zero else .subnormal)
      else if e ≤ 254 then .normal
      else (if t = 0 then .infinity else .nan) := by
  have hexp : h.toNat / 2 ^ 7 % 2 ^ 8 = e := by omega
  have hman : h.toNat % 2 ^ 7 = t := by omega
  have htop : e = 255 ↔ ¬ e ≤ 254 := by omega
  simp only [classOf_eq, hexp, hman, htop, ite_not]

theorem classOf_of_zero_mantissa {h : BF16} {sg e : Nat} (he : e ≤ 255) (hfields : h.toNat = sg * 2 ^ 15 + e * 2 ^ 7) :
    classOf h = if e = 0 then .zero else if e ≤ 254 then .normal else .infinity := by
  simpa using classOf_of_fields (t := 0) he (Nat.zero_le _) (by rw [hfields, Nat.add_zero])

/-- Where the magnitude bits of a BF16 are those of a subnormal. -/
theorem classOf_of_subnormal_magnitude {h : BF16} (hlo : 1 ≤ h.toNat % 2 ^ 15) (hhi : h.toNat % 2 ^ 15 ≤ 0x7F) :
    classOf h = .subnormal := by
  rw [classOf_eq, if_pos (by omega), if_neg (by omega)]

theorem isZero_iff_classOf (h : BF16) : isZero h = true ↔ classOf h = .zero := by
  rw [isZero_iff, classOf_eq]
  split_ifs <;> simp only [iff_true, iff_false] <;> omega

theorem isInf_iff_classOf (h : BF16) : isInf h = true ↔ classOf h = .infinity := by
  rw [isInf_iff, classOf_eq]
  split_ifs <;> simp only [iff_true, iff_false] <;> omega

theorem isNan_iff_classOf (h : BF16) : isNan h = true ↔ classOf h = .nan := by
  rw [isNan_iff, classOf_eq]
  split_ifs <;> simp only [iff_true, iff_false] <;> omega

end Sys2Proof.Proofs
end

section
/-! SUPPORT. WIDEN: the fields of the widened pattern, and that NARROW takes it back (spec/40_convert.md R56 to R58). -/

namespace Sys2Proof.Proofs

open Machine Sys2Proof.Laws

theorem narrow_widen (h : BF16) : narrow (widen h) = h := by
  have := h.isLt
  apply BitVec.eq_of_toNat_eq
  rw [narrow_toNat, widen_toNat]
  omega

theorem f32Sign_widen (h : BF16) : f32Sign (widen h) = signField h := by
  rw [f32Sign_eq, signField_eq, widen_toNat, decide_eq_decide]
  omega

theorem f32Exp_widen (h : BF16) : f32Exp (widen h) = expField h := by
  apply BitVec.eq_of_toNat_eq
  rw [f32Exp_toNat, expField_toNat, widen_toNat]
  omega

theorem f32Man_widen (h : BF16) : f32Man (widen h) = manField h ++ 0x0000#16 := by
  apply BitVec.eq_of_toNat_eq
  rw [f32Man_toNat, append_toNat, manField_toNat, widen_toNat, BitVec.toNat_ofNat]
  omega

/-- Sixteen zeros below a mantissa leave it zero or nonzero as it was. -/
theorem man_append_zeros_eq_zero_iff (m : BitVec 7) : m ++ 0x0000#16 = 0#23 ↔ m = 0#7 := by
  rw [← BitVec.toNat_inj, ← BitVec.toNat_inj, append_toNat]
  simp

theorem f32ClassOf_widen (h : BF16) : f32ClassOf (widen h) = classOf h := by
  have hman : (f32Man (widen h) == 0#23) = (manField h == 0#7) := by
    rw [Bool.beq_eq_decide_eq, Bool.beq_eq_decide_eq, decide_eq_decide, f32Man_widen, man_append_zeros_eq_zero_iff]
  rw [f32ClassOf, classOf, f32Exp_widen, hman]

end Sys2Proof.Proofs
end

section
/-! PROOFS. The statements about the Conversion Engine (spec/40_convert.md). -/

namespace Sys2Proof.Proofs

open Machine Sys2Proof.Laws

/-- Settles O7: the word is the encoded one, and the 16 bits of the sum stand in `y` with zeros above. -/
theorem narrowAddsAndTruncates : Obligations.NarrowAddsAndTruncates := by
  intro x s
  have hy : zext32 (narrow x) = BitVec.ofNat 32 ((x.toNat + 0x7FFF) % 2 ^ 32 / 2 ^ 16) := by
    apply BitVec.eq_of_toNat_eq
    rw [zext32_toNat (by decide), narrow_toNat, BitVec.toNat_ofNat]
    omega
  exact ⟨decode_encode (.narrow x), by rw [exec_narrow, hy]⟩

/-- Settles O8: the word is the encoded one, and appending sixteen zeros multiplies by 2^16. -/
theorem widenAppendsSixteenZeros : Obligations.WidenAppendsSixteenZeros := by
  intro u h s
  have hy : widen h = BitVec.ofNat 32 (h.toNat * 2 ^ 16) := by
    rw [← widen_toNat, BitVec.ofNat_toNat, BitVec.setWidth_eq]
  exact ⟨decode_encode (.widen u h), by rw [exec_widen, hy]⟩

/-- Settles O22: the lower half with the constant added reaches 2^16, once, exactly when it is 0x8001 or more. -/
theorem narrowAddsOneCarry : Obligations.NarrowAddsOneCarry := by
  intro x
  refine ⟨?_, narrow_toNat x⟩
  split_ifs with hl
  · exact narrow_of_carry hl
  · have := x.isLt
    rw [narrow_of_no_carry (by omega)]
    omega

/-- Settles O23: the sign is kept and the magnitude is narrowed alone, to the multiple of 2^16 that lies nearest. -/
theorem narrowRoundsToNearestTiesTowardZero : Obligations.NarrowRoundsToNearestTiesTowardZero := by
  intro x hdomain
  have := x.isLt
  obtain ⟨hsign, hmag⟩ := narrow_of_magnitude (x := x) (by omega)
  refine ⟨narrow_of_no_carry, ?_, hsign, ?_, ?_, ?_⟩
  · intro hl
    rw [narrow_of_carry hl]
    omega
  all_goals
    rw [hmag]
    omega

/-- Settles O24: a zero lower half carries nothing, so nothing of the pattern is lost. -/
theorem narrowIsLosslessOnRepresentableInputs : Obligations.NarrowIsLosslessOnRepresentableInputs :=
  fun x hl => ⟨narrow_of_no_carry (by omega), (widen_narrow_eq_iff x).mpr hl⟩

/-- Settles O25: the magnitudes of the two ranges narrow to 0x7F80 and to 0x7F7F. -/
theorem narrowOverflowsToInfinity : Obligations.NarrowOverflowsToInfinity := by
  intro x s
  constructor
  · intro hlo hhi
    rw [exec_narrow, narrow_eq_signed 0x7F80 (by omega) (by omega), apply_ite zext32]
    rfl
  · intro hlo hhi
    rw [exec_narrow, narrow_eq_signed 0x7F7F (by omega) (by omega), apply_ite zext32]
    rfl

/-- Settles O26: the exponent field is all ones in the result of (a), (b) and (c), and the mantissa tells which class it is; in
(d) the carry runs through both. -/
theorem narrowOfNaNFallsInFourCases : Obligations.NarrowOfNaNFallsInFourCases := by
  intro x hexp hman
  have := x.isLt
  refine ⟨?_, ?_, ?_, ?_⟩
  · intro ht hl
    have hval := narrow_of_no_carry hl
    exact ⟨hval, (isNan_iff _).mpr (by omega), isNeg_narrow_of_magnitude (by omega)⟩
  · intro ht hl
    have hval : (narrow x).toNat = x.toNat / 2 ^ 16 + 1 := (narrow_of_carry hl).trans (by omega)
    exact ⟨hval, (isNan_iff _).mpr (by omega), isNeg_narrow_of_magnitude (by omega)⟩
  · intro ht hl0 hl
    have hval := narrow_of_no_carry hl
    exact ⟨narrow_eq_signed 0x7F80 (by omega) (by omega), (isInf_iff _).mpr (by omega)⟩
  · intro ht hl
    have hval := narrow_of_wrapping_magnitude (x := x) (by omega)
    refine ⟨BitVec.eq_of_toNat_eq ?_, (isZero_iff _).mpr ?_⟩
    all_goals
      rw [hval]
      split_ifs <;> rfl

/-- Settles O27: the magnitudes of each range narrow to one pattern, or to a range of subnormals; no range is flushed. -/
theorem narrowOfSmallInputsKeepsSignAndDoesNotFlush : Obligations.NarrowOfSmallInputsKeepsSignAndDoesNotFlush := by
  intro x
  refine ⟨?_, ?_, ?_, ?_⟩
  · intro hhi
    exact narrow_eq_signed 0x0000 (by omega) (by omega)
  · intro hlo hhi
    exact narrow_eq_signed 0x0001 (by omega) (by omega)
  · intro hlo hhi
    obtain ⟨-, hmag⟩ := narrow_of_magnitude (x := x) (by omega)
    exact classOf_of_subnormal_magnitude (by omega) (by omega)
  · intro hlo hhi
    exact narrow_eq_signed 0x0080 (by omega) (by omega)

/-- Settles O28: the carry reaches the sign from exactly the magnitudes that wrap. -/
theorem narrowKeepsTheSignButForWrappingNaNs : Obligations.NarrowKeepsTheSignButForWrappingNaNs := by
  intro x
  split_ifs with hm
  · exact isNeg_narrow_of_wrapping_magnitude hm
  · exact isNeg_narrow_of_magnitude (by omega)

/-- Settles O29: in each row the carry law gives the three fields of the result, and the fields give its class. -/
theorem narrowCaseTable : Obligations.NarrowCaseTable := by
  rintro x sg e t l hsg he ht rfl
  have hsign : sg ≤ 1 := by have := x.isLt; omega
  have hexp : e ≤ 255 := by omega
  have htop : t ≤ 0x7F := by omega
  have hupper : x.toNat / 2 ^ 16 = sg * 2 ^ 15 + e * 2 ^ 7 + t := by rw [hsg, he, ht]; exact upperHalf_eq_fields _
  refine ⟨?_, ?_, ?_, ?_, ?_⟩
  · intro hl
    have hval := (narrow_of_no_carry hl).trans hupper
    exact ⟨hval, classOf_of_fields hexp htop hval⟩
  · intro hl hstays
    have hval : (narrow x).toNat = sg * 2 ^ 15 + e * 2 ^ 7 + (t + 1) := by rw [narrow_of_carry hl, hupper]; omega
    exact ⟨hval, by simpa using classOf_of_fields hexp (by omega) hval⟩
  · intro hl hcarry hfinite
    have hval : (narrow x).toNat = sg * 2 ^ 15 + (e + 1) * 2 ^ 7 := by rw [narrow_of_carry hl, hupper]; omega
    exact ⟨hval, by rw [classOf_of_zero_mantissa (by omega) hval, if_neg (by omega), if_pos (by omega)]⟩
  · intro hl hcarry hlast
    have hval : (narrow x).toNat = sg * 2 ^ 15 + 0xFF * 2 ^ 7 := by rw [narrow_of_carry hl, hupper]; omega
    exact ⟨hval, classOf_of_zero_mantissa (by decide) hval⟩
  · intro hl hcarry hones
    have hval : (narrow x).toNat = (1 - sg) * 2 ^ 15 := by rw [narrow_of_carry hl, hupper]; omega
    exact ⟨hval, (isZero_iff_classOf _).mp ((isZero_iff _).mpr (by omega))⟩

/-- Settles O30: NARROW takes a widened pattern back, and gives a preimage of each pattern with a zero lower half. -/
theorem widenIsOneToOneOntoZeroLowerHalves : Obligations.WidenIsOneToOneOntoZeroLowerHalves := by
  refine ⟨Function.LeftInverse.injective narrow_widen, ?_, fun h => ⟨f32Sign_widen h, f32Exp_widen h, f32Man_widen h⟩⟩
  intro x
  constructor
  · rintro ⟨h, rfl⟩
    rw [widen_toNat]
    exact Nat.mul_mod_left _ _
  · intro hl
    exact ⟨narrow x, (widen_narrow_eq_iff x).mpr hl⟩

/-- Settles O31: NARROW takes every widened pattern back, so (3) is (1) of a narrowed one. -/
theorem roundTrips : Obligations.RoundTrips :=
  ⟨narrow_widen, widen_narrow_eq_iff, fun x => narrow_widen (narrow x)⟩

/-- Settles O32: WIDEN copies the fields the class is read from, and each predicate is the test of one class. -/
theorem widenKeepsTheClass : Obligations.WidenKeepsTheClass := by
  intro h
  rw [f32ClassOf_widen, f32Exp_widen]
  exact ⟨rfl, f32Sign_widen h, isZero_iff_classOf h, isInf_iff_classOf h, isNan_iff_classOf h, expField_toNat h⟩

/-- Settles O4: each printed word is the encoded one, so the decoder reads its instruction back. -/
theorem printedRequestsDecode : Obligations.PrintedRequestsDecode :=
  ⟨decode_encode (.narrow 0x40490FDB#32), decode_encode (.widen 0 0x3F80#16), decode_encode (.isZero 0 0x8000#16),
    decode_encode (.isNeg 0 0xBF80#16), decode_encode (.isInf 0 0x7F80#16), decode_encode (.isNan 0 0x7F81#16),
    decode_encode (.exponent 0 0x3C00#16), decode_encode (.mantissa 0 0x4049#16), decode_encode (.limit 0 2)⟩

end Sys2Proof.Proofs
end

section
/-! SUPPORT. The meanings of the classifier's operations (spec/41_classify.md R61 to R66) as answers: the predicates read on the
magnitude `h[14:0]`, the exponent as a signed number, and the mantissa. -/

namespace Sys2Proof.Proofs

open Machine Sys2Proof.Laws

theorem exec_isZero (u : BitVec 16) (h : BF16) (s : State) :
    exec (.isZero u h) s = answer (flagResult (isZero h)) s := rfl

theorem exec_isNeg (u : BitVec 16) (h : BF16) (s : State) :
    exec (.isNeg u h) s = answer (flagResult (isNeg h)) s := rfl

theorem exec_isInf (u : BitVec 16) (h : BF16) (s : State) :
    exec (.isInf u h) s = answer (flagResult (isInf h)) s := rfl

theorem exec_isNan (u : BitVec 16) (h : BF16) (s : State) :
    exec (.isNan u h) s = answer (flagResult (isNan h)) s := rfl

theorem exec_exponent (u : BitVec 16) (h : BF16) (s : State) :
    exec (.exponent u h) s = answer (zext32 (exponent h)) s := rfl

theorem exec_mantissa (u : BitVec 16) (h : BF16) (s : State) :
    exec (.mantissa u h) s = answer (zext32 (mantissa h)) s := rfl

/-- A flag answers 1 exactly under any condition that says when it holds. -/
theorem answer_flagResult {b : Bool} {p : Prop} [Decidable p] (h : b = true ↔ p) (s : State) :
    answer (flagResult b) s = .next { s with y := if p then 1 else 0, ill := false } := by
  rw [flagResult_eq, answer]
  simp only [h]

/-- "The same as: h[14:0] == 0x7F80" (spec/41_classify.md R63). -/
theorem isInf_iff_magnitude (h : BF16) : isInf h = true ↔ h.toNat % 2 ^ 15 = 0x7F80 := by
  rw [isInf_iff]
  omega

/-- "The same as: h[14:0] > 0x7F80" (spec/41_classify.md R64). -/
theorem isNan_iff_magnitude (h : BF16) : isNan h = true ↔ 0x7F80 < h.toNat % 2 ^ 15 := by
  rw [isNan_iff]
  omega

theorem magnitude_eq_zero_iff (h : BF16) : h.extractLsb' 0 15 = 0#15 ↔ h.toNat % 2 ^ 15 = 0 := by
  rw [← isZero_iff, isZero, beq_iff_eq]

theorem expField_eq_ones_iff (h : BF16) : expField h = 0xFF#8 ↔ h.toNat / 2 ^ 7 % 2 ^ 8 = 0xFF := by
  rw [← expField_toNat, ← BitVec.toNat_inj]
  rfl

/-- The subtraction of EXPONENT does not wrap as a signed number (spec/41_classify.md R68). -/
theorem toInt_sub_bias (e : BitVec 8) : (e.setWidth 16 - bias).toInt = (e.toNat : Int) - 127 := by
  have he := e.isLt
  have hfield : (e.setWidth 16).toInt = e.toNat := by
    rw [BitVec.toInt_setWidth, Int.bmod_eq_of_le] <;> omega
  have hbias : bias.toInt = 127 := rfl
  rw [BitVec.toInt_sub, hfield, hbias, Int.bmod_eq_of_le] <;> omega

/-- EXPONENT as a signed number (spec/41_classify.md R65, R68). -/
theorem exponent_toInt (h : BF16) :
    (exponent h).toInt =
      if h.toNat % 2 ^ 15 = 0 then 0
      else if h.toNat / 2 ^ 7 % 2 ^ 8 = 0xFF then 32767
      else ((h.toNat / 2 ^ 7 % 2 ^ 8 : Nat) : Int) - 127 := by
  simp only [exponent, magnitude_eq_zero_iff, expField_eq_ones_iff, apply_ite BitVec.toInt, toInt_sub_bias,
    expField_toNat]
  rfl

/-- EXPONENT as a pattern (spec/41_classify.md R65). -/
theorem exponent_eq (h : BF16) :
    exponent h =
      if h.toNat % 2 ^ 15 = 0 then 0
      else if h.toNat / 2 ^ 7 % 2 ^ 8 = 0xFF then 0x7FFF
      else BitVec.ofInt 16 ((h.toNat / 2 ^ 7 % 2 ^ 8 : Nat) - 127 : Int) := by
  rw [← BitVec.ofInt_toInt (x := exponent h), exponent_toInt, apply_ite (BitVec.ofInt 16),
    apply_ite (BitVec.ofInt 16)]
  rfl

theorem zext32_mantissa (h : BF16) : zext32 (mantissa h) = BitVec.ofNat 32 (h.toNat % 2 ^ 7) := by
  rw [← manField_toNat]
  exact (BitVec.ofNat_toNat 32 _).symm

end Sys2Proof.Proofs
end

section
/-! SUPPORT. The sign bit plays no part but in IS_NEG (spec/41_classify.md R61 to R67). -/

namespace Sys2Proof.Proofs

open Machine Sys2Proof.Laws

/-- Flipping the sign bit leaves every field below it. -/
theorem extractLsb'_flipSign (h : BF16) {i n : Nat} (hin : i + n ≤ 15) :
    (h ^^^ 0x8000#16).extractLsb' i n = h.extractLsb' i n := by
  have hmask : 0x8000#16 = BitVec.twoPow 16 15 := rfl
  ext k hk
  have hbelow : 15 ≠ i + k := by omega
  simp [hmask, BitVec.getLsbD_twoPow, hbelow]

@[simp] theorem expField_flipSign (h : BF16) : expField (h ^^^ 0x8000#16) = expField h :=
  extractLsb'_flipSign h (by decide)

@[simp] theorem manField_flipSign (h : BF16) : manField (h ^^^ 0x8000#16) = manField h :=
  extractLsb'_flipSign h (by decide)

theorem isNeg_flipSign (h : BF16) : isNeg (h ^^^ 0x8000#16) = !isNeg h := by
  simp [isNeg, signField]

theorem isZero_flipSign (h : BF16) : isZero (h ^^^ 0x8000#16) = isZero h := by
  rw [isZero, extractLsb'_flipSign h (by decide), isZero]

theorem isInf_flipSign (h : BF16) : isInf (h ^^^ 0x8000#16) = isInf h := by
  simp [isInf]

theorem isNan_flipSign (h : BF16) : isNan (h ^^^ 0x8000#16) = isNan h := by
  simp [isNan]

theorem exponent_flipSign (h : BF16) : exponent (h ^^^ 0x8000#16) = exponent h := by
  rw [exponent, extractLsb'_flipSign h (by decide), expField_flipSign, exponent]

/-- EXPONENT answers the sentinel for no finite pattern (spec/41_classify.md R67). -/
theorem exponent_eq_sentinel_iff (h : BF16) : exponent h = 0x7FFF#16 ↔ expField h = 0xFF#8 := by
  have hsentinel : (0x7FFF#16).toInt = 32767 := rfl
  rw [← BitVec.toInt_inj, hsentinel, exponent_toInt, expField_eq_ones_iff]
  split_ifs <;> omega

theorem isInf_or_isNan_iff (h : BF16) : (isInf h = true ∨ isNan h = true) ↔ expField h = 0xFF#8 := by
  rw [isInf_iff, isNan_iff, expField_eq_ones_iff]
  omega

end Sys2Proof.Proofs
end

section
/-! SUPPORT. The classifier on a narrowed pattern (spec/41_classify.md R70): the predicates of `narrow x`, and the class
of `x`, as ranges of the magnitude `x[30:0]`. -/

namespace Sys2Proof.Proofs

open Machine Sys2Proof.Laws

/-- The magnitude is narrowed apart from the sign, also where its carry goes on into the sign. -/
theorem narrow_magnitude (x : F32) :
    (narrow x).toNat % 2 ^ 15 = (x.toNat % 2 ^ 31 + 0x7FFF) / 2 ^ 16 % 2 ^ 15 := by
  rw [narrow_toNat]
  omega

theorem isZero_narrow_iff (x : F32) :
    isZero (narrow x) = true ↔ x.toNat % 2 ^ 31 ≤ 0x8000 ∨ 0x7FFF8001 ≤ x.toNat % 2 ^ 31 := by
  rw [isZero_iff, narrow_magnitude]
  omega

theorem isInf_narrow_iff (x : F32) :
    isInf (narrow x) = true ↔ 0x7F7F8001 ≤ x.toNat % 2 ^ 31 ∧ x.toNat % 2 ^ 31 ≤ 0x7F808000 := by
  rw [isInf_iff_magnitude, narrow_magnitude]
  omega

theorem isNan_narrow_iff (x : F32) :
    isNan (narrow x) = true ↔ 0x7F808001 ≤ x.toNat % 2 ^ 31 ∧ x.toNat % 2 ^ 31 ≤ 0x7FFF8000 := by
  rw [isNan_iff_magnitude, narrow_magnitude]
  omega

/-- The class of an F32 in terms of its fields, as numbers (spec/30_encoding.md R35). -/
theorem f32ClassOf_eq (x : F32) :
    f32ClassOf x = if x.toNat / 2 ^ 23 % 2 ^ 8 = 0 then (if x.toNat % 2 ^ 23 = 0 then .zero else .subnormal)
      else if x.toNat / 2 ^ 23 % 2 ^ 8 = 255 then (if x.toNat % 2 ^ 23 = 0 then .infinity else .nan) else .normal := by
  have hman : (f32Man x == 0#23) = decide (x.toNat % 2 ^ 23 = 0) := by
    rw [← f32Man_toNat, Bool.beq_eq_decide_eq, decide_eq_decide, ← BitVec.toNat_inj]
    rfl
  rw [f32ClassOf, classOfFields_eq, f32Exp_toNat, hman]
  simp only [decide_eq_true_eq]

theorem f32ClassOf_eq_zero_iff (x : F32) : f32ClassOf x = .zero ↔ x.toNat % 2 ^ 31 = 0 := by
  rw [f32ClassOf_eq]
  split_ifs <;> simp only [true_iff, false_iff] <;> omega

theorem f32ClassOf_eq_infinity_iff (x : F32) : f32ClassOf x = .infinity ↔ x.toNat % 2 ^ 31 = 0x7F800000 := by
  rw [f32ClassOf_eq]
  split_ifs <;> simp only [true_iff, false_iff] <;> omega

theorem f32ClassOf_eq_nan_iff (x : F32) : f32ClassOf x = .nan ↔ 0x7F800001 ≤ x.toNat % 2 ^ 31 := by
  rw [f32ClassOf_eq]
  split_ifs <;> simp only [true_iff, false_iff] <;> omega

end Sys2Proof.Proofs
end

section
/-! PROOFS. The statements about the Special-Value Classifier (spec/41_classify.md). -/

namespace Sys2Proof.Proofs

open Machine Sys2Proof.Laws

/-- Settles O9: the word is the encoded one, and the flag is the test of the magnitude bits. -/
theorem isZeroTestsAllBitsButTheSign : Obligations.IsZeroTestsAllBitsButTheSign := by
  intro u h s
  rw [exec_isZero]
  exact ⟨decode_encode (.isZero u h), answer_flagResult (isZero_iff h) s⟩

/-- Settles O10: the sign bit is set from 0x8000 on. -/
theorem isNegIsTheSignBit : Obligations.IsNegIsTheSignBit := by
  intro u h s
  rw [exec_isNeg]
  exact ⟨decode_encode (.isNeg u h), answer_flagResult (isNeg_iff h) s⟩

/-- Settles O11: the flag is the test of the two fields, which is that of the magnitude they make up. -/
theorem isInfTestsExponentAndMantissa : Obligations.IsInfTestsExponentAndMantissa := by
  intro u h s
  rw [exec_isInf]
  exact ⟨decode_encode (.isInf u h), answer_flagResult (isInf_iff h) s, answer_flagResult (isInf_iff_magnitude h) s⟩

/-- Settles O12: the flag is the test of the two fields, which is that of the magnitude they make up. -/
theorem isNanTestsExponentAndMantissa : Obligations.IsNanTestsExponentAndMantissa := by
  intro u h s
  rw [exec_isNan]
  exact ⟨decode_encode (.isNan u h), answer_flagResult (isNan_iff h) s, answer_flagResult (isNan_iff_magnitude h) s⟩

/-- Settles O13: the three cases of the exponent, each with zeros above it. -/
theorem exponentIsUnbiasedWithSentinels : Obligations.ExponentIsUnbiasedWithSentinels := by
  intro u h s
  refine ⟨decode_encode (.exponent u h), ?_⟩
  rw [exec_exponent, exponent_eq, apply_ite zext32, apply_ite zext32]
  rfl

/-- Settles O14: the field stands in `y` with zeros above it. -/
theorem mantissaIsTheRawField : Obligations.MantissaIsTheRawField := by
  intro u h s
  refine ⟨decode_encode (.mantissa u h), ?_⟩
  rw [exec_mantissa, zext32_mantissa]
  rfl

/-- Settles O33: the answers before and after are ranges of one magnitude, so each clause compares two ranges. The sign is that
of the conversion's own law, O28. -/
theorem narrowChangesTheClassifierAnswersInFourWays : Obligations.NarrowChangesTheClassifierAnswersInFourWays := by
  intro x
  have hsign : isNeg (narrow x) ≠ f32Sign x ↔ 0x7FFF8001 ≤ x.toNat % 2 ^ 31 := by
    rw [narrowKeepsTheSignButForWrappingNaNs x]
    split_ifs with hm <;> simpa using hm
  refine ⟨?_, ?_, ?_, ?_, ?_, ?_, hsign⟩
  all_goals
    simp only [ne_eq, ← Bool.not_eq_true, isZero_narrow_iff, isInf_narrow_iff, isNan_narrow_iff,
      f32ClassOf_eq_zero_iff, f32ClassOf_eq_infinity_iff, f32ClassOf_eq_nan_iff]
    omega

/-- Settles O35: each of the three predicates is the test of one class, so no two hold together; the fields below the sign bit
are the same after a flip of it. -/
theorem predicatesRelate : Obligations.PredicatesRelate := by
  intro h
  refine ⟨?_, ?_, ?_, ?_, isNeg_flipSign h, isZero_flipSign h, isInf_flipSign h, isNan_flipSign h,
    isInf_or_isNan_iff h, exponent_eq_sentinel_iff h⟩
  all_goals
    simp only [← Bool.not_eq_true, isZero_iff_classOf, isInf_iff_classOf, isNan_iff_classOf]
    cases classOf h <;> decide

/-- Settles O36: the signed value is the field less 127 outside the two special cases, whose values are not 128 either. -/
theorem exponentIsTheFieldLessTheBias : Obligations.ExponentIsTheFieldLessTheBias := by
  intro h
  refine ⟨?_, ?_, exponent_flipSign h⟩
  · intro hnonzero hfinite
    have hvalue : (exponent h).toInt = (h.toNat / 2 ^ 7 % 2 ^ 8 : Nat) - 127 := by
      rw [exponent_toInt, if_neg hnonzero, if_neg hfinite]
    exact ⟨hvalue, by omega, by omega⟩
  · rw [exponent_toInt]
    split_ifs <;> omega

end Sys2Proof.Proofs
end

section
/-! SUPPORT. What LIMIT answers, and what the classifier says of each entry of the ROM (spec/42_limits.md R71, R72, R75). The
index has three bits, so a fact about every entry is a check of eight closed cases. -/

namespace Sys2Proof.Proofs

open Machine Sys2Proof.Laws

theorem exec_limit (u : BitVec 29) (i : RomIndex) (s : State) :
    exec (.limit u i) s = answer (zext32 (limit i)) s := rfl

/-- The entries in the order of their indices, as `y` shows them (spec/42_limits.md R71). -/
theorem zext32_limit : ∀ i : RomIndex,
    zext32 (limit i) = [0x0080, 0xFF7F, 0x7F7F, 0x3C00, 0x0001, 0x7F80, 0x7F81, 0x3F00].getD i.toNat 0 := by
  decide

/-- Only INFINITY is infinite. -/
theorem isInf_limit_iff : ∀ i : RomIndex, isInf (limit i) = true ↔ i = limitIndex .infinity := by
  decide

/-- Only QUIET_NAN is a NaN. -/
theorem isNan_limit_iff : ∀ i : RomIndex, isNan (limit i) = true ↔ i = limitIndex .quietNan := by
  decide

/-- Only LOWEST is negative. -/
theorem isNeg_limit_iff : ∀ i : RomIndex, isNeg (limit i) = true ↔ i = limitIndex .lowest := by
  decide

theorem isZero_limit : ∀ i : RomIndex, isZero (limit i) = false := by
  decide

theorem exponent_limit_toInt : ∀ i : RomIndex,
    (exponent (limit i)).toInt = [-126, 127, 127, -7, -127, 32767, 32767, -1].getD i.toNat 0 := by
  decide

theorem mantissa_limit_toNat : ∀ i : RomIndex,
    (mantissa (limit i)).toNat = [0, 0x7F, 0x7F, 0, 1, 0, 1, 0].getD i.toNat 0 := by
  decide

/-- One half as an F32 is a widened BF16, which NARROW takes back without loss (spec/42_limits.md R73, spec/40_convert.md
R49). -/
theorem narrow_oneHalf : narrow 0x3F000000#32 = 0x3F00#16 := by
  have hwidened : 0x3F000000#32 = widen 0x3F00#16 := rfl
  rw [hwidened, narrow_widen]

end Sys2Proof.Proofs
end

section
/-! PROOFS. The statements about LIMIT and the constants it reads (spec/42_limits.md). -/

namespace Sys2Proof.Proofs

open Machine Sys2Proof.Laws

/-- Settles O15: the word is the encoded one, and the constant at the index stands in `y` with zeros above it. -/
theorem limitReadsTheTable : Obligations.LimitReadsTheTable := by
  intro u i s
  refine ⟨decode_encode (.limit u i), ?_⟩
  rw [exec_limit, zext32_limit]
  rfl

/-- Settles O37: both steps answer `F`, whose LIMIT row reads the last entry and whose NARROW row rounds nothing away. -/
theorem roundErrorIsNarrowedOneHalf : Obligations.RoundErrorIsNarrowedOneHalf := by
  intro s s' hop hindex hop' ha'
  have hread : indexOperand s.a = limitIndex .roundError :=
    BitVec.eq_of_toNat_eq ((indexOperand_toNat s.a).trans hindex)
  have hlimit : respond s.op s.a = ⟨0x3F00, false⟩ := by
    rw [hop, respond_limit, hread, zext32_limit]
    rfl
  have hnarrow : respond s'.op s'.a = ⟨0x3F00, false⟩ := by
    rw [hop', ha', respond_narrow, narrow_oneHalf]
    rfl
  exact ⟨_, _, step_eq_respond s, step_eq_respond s', congrArg Response.y hlimit, congrArg Response.y hnarrow,
    congrArg Response.ill hlimit, congrArg Response.ill hnarrow⟩

/-- Settles O38: the BF16 is the entry itself, of which each predicate and field is known at every index. -/
theorem classifierAgreesWithTheConstants : Obligations.ClassifierAgreesWithTheConstants :=
  fun u i s => ⟨limit i, exec_limit u i s, isInf_limit_iff i, isNan_limit_iff i, isNeg_limit_iff i, isZero_limit i,
    exponent_limit_toInt i, mantissa_limit_toNat i⟩

end Sys2Proof.Proofs
end

section
/-! SUPPORT. `ill` as a function of the code (spec/60_exceptions.md R78), and the mark of a run in terms of its responses
(spec/70_reset_and_hazards.md R97). -/

namespace Sys2Proof.Proofs

open Machine Sys2Proof.Laws

@[simp] theorem illOf_eq_true_iff (op : OpCode) : illOf op = true ↔ 9 ≤ op.toNat := decide_eq_true_iff

@[simp] theorem illOf_eq_false_iff (op : OpCode) : illOf op = false ↔ op.toNat < 9 :=
  decide_eq_false_iff_not.trans Nat.not_le

/-- The `ill` of `F` reads nothing but the code (spec/60_exceptions.md R78). -/
theorem respond_ill (op : OpCode) (a : BitVec 32) : (respond op a).ill = illOf op := by
  obtain hdefined | hreserved := Nat.lt_or_ge op.toNat 9
  · rw [respond_ill_of_defined hdefined, (illOf_eq_false_iff op).mpr hdefined]
  · rw [respond_of_reserved hreserved, (illOf_eq_true_iff op).mpr hreserved]

/-- The mark at the end of a run: what it was, or set by a response with `ill = 1`. -/
theorem refused_of_run {ws : List Request} {s t : State} {rs : List Response}
    (h : runRequests ws s = .next (t, rs)) : t.refused = (s.refused || rs.any Response.ill) := by
  obtain ⟨t', hrun, hmark⟩ := runRequests_answers ws s
  obtain ⟨rfl, rfl⟩ : t = t' ∧ rs = ws.map respondWord := by simpa [h] using hrun
  rw [hmark, List.any_map]
  rfl

/-- A run from a state without a refusal ends without one exactly if no response has `ill = 1`. -/
theorem noRefusal_of_run_iff {ws : List Request} {s t : State} {rs : List Response}
    (h : runRequests ws s = .next (t, rs)) (hs : NoRefusal s) : NoRefusal t ↔ ∀ r ∈ rs, r.ill = false := by
  rw [NoRefusal, refused_of_run h, hs, Bool.false_or, List.any_eq_false]
  simp only [Bool.not_eq_true]

/-- No response of a run has `ill = 1` exactly if every request has a defined code. -/
theorem responses_not_ill_iff {ws : List Request} {s t : State} {rs : List Response}
    (h : runRequests ws s = .next (t, rs)) : (∀ r ∈ rs, r.ill = false) ↔ ∀ w ∈ ws, (opOf w).toNat < 9 := by
  rw [responses_of_run h, List.forall_mem_map]
  simp only [respondWord, respond_ill, illOf_eq_false_iff]

end Sys2Proof.Proofs
end

section
/-! PROOFS. The statements about reserved codes and the mark of a run (spec/60_exceptions.md). -/

namespace Sys2Proof.Proofs

open Machine Sys2Proof.Laws

/-- Settles O41: the mark collects the `ill` of the responses, and each response has the `ill` of its request's code. -/
theorem runIsBadExactlyIfARequestWasReserved : Obligations.RunIsBadExactlyIfARequestWasReserved := by
  intro ws s t rs hrun hs
  have hmark : NoRefusal t ↔ ∀ r ∈ rs, r.ill = false := noRefusal_of_run_iff hrun hs
  exact ⟨hmark.trans (responses_not_ill_iff hrun), hmark⟩

/-- Settles O49: a step writes the `ill` of `F`, which is that of the code, over the one before. -/
theorem illFollowsOpAloneAndDoesNotPersist : Obligations.IllFollowsOpAloneAndDoesNotPersist := by
  intro s
  have hill : (respond s.op s.a).ill = illOf s.op := respond_ill s.op s.a
  exact ⟨_, step_eq_respond s, hill, by rw [hill, illOf_eq_true_iff]⟩

end Sys2Proof.Proofs
end

section
/-! SUPPORT. A script without `if` (spec/30_encoding.md R43): its lines keep the host running with the names of the lines before
bound, and a host that is so runs each line that is well-formed for those names. -/

namespace Sys2Proof.Proofs

open Machine Sys2Proof.Laws

/-- The host outside every `if`, with each of the names bound: where a script without `if` stands between its lines. -/
structure StandsWith (bound : List String) (h : HostState) : Prop where
  nest : h.nest = []
  names : ∀ n ∈ bound, ∃ v, lookupName n h.names = .ok v

theorem StandsWith.running {bound : List String} {h : HostState} (hh : StandsWith bound h) : h.running = true := by
  simp [HostState.running, hh.nest]

theorem standsWith_start (s : State) : StandsWith [] (.start s) := ⟨rfl, by simp⟩

/-- Binding a name gives it a value and takes none from another name. -/
theorem lookupName_bindName {bound : List String} {names : List (String × BitVec 32)}
    (hnames : ∀ n ∈ bound, ∃ v, lookupName n names = .ok v) (b : Option String) (y : BitVec 32) :
    ∀ n ∈ b.toList ++ bound, ∃ v, lookupName n (bindName b y names) = .ok v := by
  cases b with
  | none => exact hnames
  | some m =>
    intro n hn
    obtain rfl | hne := eq_or_ne n m
    · exact ⟨y, by simp [lookupName, bindName]⟩
    · have hlookup : lookupName n (bindName (some m) y names) = lookupName n names := by
        simp [lookupName, bindName, List.lookup_cons, beq_false_of_ne hne]
      rw [hlookup]
      exact hnames n ((List.mem_cons.mp hn).resolve_left hne)

/-- A request word is answered, and the name before it joins the bound ones. -/
theorem sendWord_standsWith {bound : List String} {h : HostState} (hh : StandsWith bound h) (b : Option String)
    (w : Request) : ∃ g, sendWord b w h = .ok g ∧ StandsWith (b.toList ++ bound) g := by
  obtain ⟨g, hsend, -, hnames, hnest⟩ := sendWord_answers b w h
  refine ⟨g, hsend, hnest.trans hh.nest, ?_⟩
  rw [hnames]
  exact lookupName_bindName hh.names b _

/-- An operand that fits its operation, and is no name or a bound one, has a value. -/
theorem operandValue_standsWith {bound : List String} {h : HostState} (hh : StandsWith bound h) {op : OpCode}
    {o : Operand} (hfits : ∀ n, o = .limitName n → op = 0x8#4) (hbound : ∀ n, o = .name n → n ∈ bound) :
    ∃ a, operandValue op o h.names = .ok a := by
  cases o with
  | literal v => exact ⟨v, rfl⟩
  | limitName n => exact ⟨_, if_pos (hfits n rfl)⟩
  | name n => exact hh.names n (hbound n rfl)

/-- The first line of an expansion is sent, and the name before it joins the bound ones. -/
theorem sendAll_cons_standsWith {bound : List String} {h : HostState} (hh : StandsWith bound h) {c : CoreSend}
    (hfits : ∀ n, c.operand = .limitName n → c.op = 0x8#4) (hbound : ∀ n, c.operand = .name n → n ∈ bound)
    (cs : List CoreSend) : ∃ g, sendAll (c :: cs) h = sendAll cs g ∧ StandsWith (c.bind.toList ++ bound) g := by
  obtain ⟨a, ha⟩ := operandValue_standsWith hh hfits hbound
  obtain ⟨g, hsend, hg⟩ := sendWord_standsWith hh c.bind (packRequest c.op a)
  exact ⟨g, sendAll_cons ha hsend, hg⟩

/-- Every mnemonic but ROUNDTRIP expands to one line (spec/30_encoding.md R44). -/
theorem expandSend_eq_singleton {m : Mnemonic} (hm : m ≠ .roundtrip) (b : Option String) (o : Operand) :
    ∃ op, expandSend b m o = [⟨b, op, o⟩] := by
  cases m with
  | roundtrip => exact absurd rfl hm
  | _ => exact ⟨_, rfl⟩

/-- A request line completes, and the names it binds join the bound ones. -/
theorem runLine_send_standsWith {bound : List String} {h : HostState} (hh : StandsWith bound h) (b : Option String)
    {m : Mnemonic} {o : Operand} (hfits : ∀ n, o = .limitName n → m = .limit) (hbound : ∀ n, o = .name n → n ∈ bound) :
    ∃ g, runLine (.send b m o) h = .ok g ∧ StandsWith (boundBy b m ++ bound) g := by
  rw [runLine_send_of_running b m o hh.running]
  have hcodes := expandSend_fits b hfits
  obtain rfl | hm := eq_or_ne m .roundtrip
  · obtain ⟨hnarrow, hwiden⟩ := List.forall_mem_cons.mp hcodes
    obtain ⟨h₁, hsend₁, hh₁⟩ := sendAll_cons_standsWith hh hnarrow hbound [⟨b, 0x1#4, .name "t"⟩]
    obtain ⟨h₂, hsend₂, hh₂⟩ := sendAll_cons_standsWith (c := ⟨b, 0x1#4, .name "t"⟩) hh₁
      (hwiden _ List.mem_cons_self) (by simp) []
    exact ⟨h₂, hsend₁.trans hsend₂, by simpa [boundBy] using hh₂⟩
  · obtain ⟨op, hexpand⟩ := expandSend_eq_singleton hm b o
    rw [hexpand] at hcodes ⊢
    obtain ⟨g, hsend, hg⟩ := sendAll_cons_standsWith hh (hcodes _ List.mem_cons_self) hbound []
    exact ⟨g, hsend, by simpa [boundBy, hm] using hg⟩

/-- A RAW line completes, whatever its code (spec/60_exceptions.md R78; log entry 3). -/
theorem runLine_raw_standsWith {bound : List String} {h : HostState} (hh : StandsWith bound h) (b : String)
    (w : Request) : ∃ g, runLine (.raw b w) h = .ok g ∧ StandsWith (b :: bound) g := by
  obtain ⟨g, hsend, hg⟩ := sendWord_standsWith hh (some b) w
  exact ⟨g, by simpa [runLine, hh.running] using hsend, hg⟩

/-- An `assert` of a bound name completes, whether or not it holds (log entry 11). -/
theorem runLine_assertEq_standsWith {bound : List String} {h : HostState} (hh : StandsWith bound h) {n : String}
    (hn : n ∈ bound) (v : BitVec 32) : ∃ g, runLine (.assertEq n v) h = .ok g ∧ StandsWith bound g := by
  obtain ⟨x, hx⟩ := hh.names n hn
  exact ⟨{ h with assertFailed := h.assertFailed || x != v }, by simp [runLine, hh.running, hx], hh.nest, hh.names⟩

/-- What the form of a script asks of a request line and of the lines after it. -/
theorem linesWellFormed_send {b : Option String} {m : Mnemonic} {o : Operand} {ls : List Line}
    {bound : List String} {elses : List Bool} (h : linesWellFormed (.send b m o :: ls) bound elses = true) :
    (∀ n, o = .limitName n → m = .limit) ∧ (∀ n, o = .name n → n ∈ bound) ∧
      linesWellFormed ls (boundBy b m ++ bound) elses = true := by
  obtain ⟨hoperand, hrest⟩ := Bool.and_eq_true_iff.mp h
  refine ⟨?_, ?_, hrest⟩
  · rintro n rfl
    simpa [takesLimitName] using hoperand
  · rintro n rfl
    simpa using hoperand

/-- Well-formed lines without an `if` complete wherever the names of the lines before are bound. -/
theorem runScript_straight_ok {ls : List Line} {bound : List String} {h : HostState} (hh : StandsWith bound h)
    (hls : linesWellFormed ls bound [] = true) (hif : ∀ n v, Line.ifEq n v ∉ ls) : ∃ g, runScript ls h = .ok g := by
  induction ls generalizing bound h with
  | nil => exact ⟨h, rfl⟩
  | cons l ls ih =>
    have hifs : ∀ n v, Line.ifEq n v ∉ ls := fun n v hmem => hif n v (List.mem_cons_of_mem l hmem)
    cases l with
    | send b m o =>
      obtain ⟨hfits, hbound, hrest⟩ := linesWellFormed_send hls
      obtain ⟨g, hline, hg⟩ := runLine_send_standsWith hh b hfits hbound
      rw [runScript_cons_ok hline]
      exact ih hg hrest hifs
    | raw b w =>
      obtain ⟨g, hline, hg⟩ := runLine_raw_standsWith hh b w
      rw [runScript_cons_ok hline]
      exact ih hg hls hifs
    | assertEq n v =>
      obtain ⟨hn, hrest⟩ := Bool.and_eq_true_iff.mp hls
      obtain ⟨g, hline, hg⟩ := runLine_assertEq_standsWith hh (List.contains_iff_mem.mp hn) v
      rw [runScript_cons_ok hline]
      exact ih hg hrest hifs
    | ifEq n v => exact absurd List.mem_cons_self (hif n v)
    | elseLine => exact absurd hls Bool.false_ne_true
    | endLine => exact absurd hls Bool.false_ne_true

end Sys2Proof.Proofs
end

section
/-! PROOFS. The statement about straight scripts (spec/70_reset_and_hazards.md R97). -/

namespace Sys2Proof.Proofs

open Machine Sys2Proof.Laws

/-- Settles O48: no name is bound at the start, and every line completes and binds the names that later lines may use. -/
theorem straightScriptsComplete : Obligations.StraightScriptsComplete :=
  fun _ s hls hif => runScript_straight_ok (standsWith_start s) hls hif

end Sys2Proof.Proofs
end

section
/-! PROOFS. The statement about the model's first state (spec/70_reset_and_hazards.md R91, R92; log entry 2). -/

namespace Sys2Proof.Proofs

open Machine

/-- The request of all zeros, NARROW of `+0`, is answered with zeros (spec/40_convert.md R46). -/
theorem respond_zero : respond 0 0 = ⟨0, false⟩ := by decide

/-- Settles O43: the first state's outputs are the response of its request of all zeros, and its `ill` is clear, so there is
nothing to mark. -/
theorem resetMeetsTheInvariant : Obligations.ResetMeetsTheInvariant :=
  have hsettled : Settled State.reset := respond_zero.symm
  have hmarked : Marked State.reset := fun hill => absurd hill Bool.false_ne_true
  ⟨hsettled, hmarked⟩

end Sys2Proof.Proofs
end
